-- ==== Sys2Proof/Word.lean ====
section
/-! DEFINITION. The widths that cross the block's boundary (00_scope.md R8, R11; 20_memory.md R36). -/

namespace Sys2Proof

/-- The 32-bit wire word, bit 31 most significant (00_scope.md R10, 10_state.md R24). -/
abbrev Word := BitVec 32

/-- The width of the reversal primitive and of the port's two integers (00_scope.md R8, R9). -/
abbrev Byte := BitVec 8

end Sys2Proof
end

