-- ==== Sys2Proof/Syntax.lean ====
section
/-! DEFINITION. The data that crosses the block's boundary (10_state.md section 1, 30_encoding.md section 3)
and `Instr`, one constructor per row of spec/opcode_table.json. -/

namespace Sys2Proof

/-- The five modes of 10_state.md R17, in the order of its listing; a closed enumeration, not an integer. -/
inductive Mode
  | auto | cool | dry | fan | heat
deriving DecidableEq, Repr

/-- `Unit` of 10_state.md R18 (renamed: Lean has a type `Unit`). -/
inductive TempUnit
  | celsius | fahrenheit
deriving DecidableEq, Repr

/-- The typed `Command`, six fields and nothing else (10_state.md R22). The two integers are unbounded (R20, R21). -/
structure Command where
  power : Bool
  mode : Mode
  fanSpeed : Int
  sleep : Bool
  temperature : Int
  unit : TempUnit
deriving DecidableEq, Repr

/-- A `Command` as the port carries it, in `cmd_in` and in `cmd_out` (30_encoding.md R52, R53). -/
structure CmdPort where
  power : Bool
  /-- 0 Auto, 1 Cool, 2 Dry, 3 Fan, 4 Heat; 5, 6, 7 are not modes (30_encoding.md R53, R55). -/
  mode : BitVec 3
  fanSpeed : Byte
  sleep : Bool
  temperature : Byte
  /-- true is 1, Fahrenheit (30_encoding.md R53). -/
  unit : Bool
deriving DecidableEq, Repr

/-- The bundle with every signal at zero: what an operation that produces no command drives (30_encoding.md R56). -/
def zeroCmd : CmdPort := ⟨false, 0, 0, false, 0, false⟩

/-- The input signals of the port, format `REQ` (30_encoding.md R51, R52). -/
structure Request where
  op : BitVec 2
  wordIn : Word
  cmdIn : CmdPort
deriving DecidableEq, Repr

/-- The output signals of the port (30_encoding.md R52, R56). -/
structure PortResponse where
  wordOut : Word
  cmdOut : CmdPort
deriving DecidableEq, Repr

/-- One request at the typed level: the three operations of 30_encoding.md R58 (`REV8 x`, `ENCODE c`, `DECODE w`). -/
inductive Transaction
  | rev8 (x : Word)
  | encode (c : Command)
  | decode (w : Word)
deriving DecidableEq, Repr

/-- The response at the typed level: a word or a `Command`, and no unused output (30_encoding.md R56). -/
inductive Response
  | word (w : Word)
  | command (c : Command)
deriving DecidableEq, Repr

/-- One written line of 30_encoding.md R58: `MNEMONIC operand -> result`. -/
structure Line where
  transaction : Transaction
  result : Response
deriving DecidableEq, Repr

/-- The two formats of 30_encoding.md R43. -/
inductive Format
  | req | wire32
deriving DecidableEq, Repr

/-- What an instruction looks like to the block: an item of one of the two formats of 30_encoding.md R43. -/
inductive Presented
  | request (r : Request)
  | wire (w : Word)
deriving DecidableEq, Repr

/-- The bits of a wire word that `DECODE` ignores, field by field of 30_encoding.md R44. -/
structure Ignored where
  bit25 : Bool
  bits19to5 : BitVec 15
  bits3to0 : BitVec 4
deriving DecidableEq, Repr

/-- One constructor per row of spec/opcode_table.json.

Format `REQ` (30_encoding.md R51): a constructor holds the operands its row reads.
Format `WIRE32` (30_encoding.md R44 to R50): a constructor holds the letters of its row's pattern, in the pattern's
order (`m` mode, `p` power, `f` fan, `s` sleep, `t` temp, `u` unit, `x` ignored). -/
inductive Instr
  /-- `REV8`: all of `word_in`; only bits 7:0 are read (40_bitrev.md R60, R62). -/
  | rev8 (wordIn : Word)
  /-- `ENCODE`: `cmd_in` (42_encode.md R80, R89). -/
  | encode (cmdIn : CmdPort)
  /-- `DECODE`: `word_in` (43_decode.md R90, R97). -/
  | decode (wordIn : Word)
  /-- `RESERVED_OP3`: no operand (30_encoding.md R54). -/
  | reservedOp3
  /-- `COMMAND`, `mmmpff0stttt000000000110000u0010` (30_encoding.md R44). -/
  | command (mode : BitVec 3) (power : Bool) (fan : BitVec 2) (sleep : Bool) (temp : BitVec 4) (unit : Bool)
  /-- `COMMAND_MODE_AUTO`, mode bits 000 (30_encoding.md R46). -/
  | commandModeAuto (power : Bool) (fan : BitVec 2) (sleep : Bool) (temp : BitVec 4) (unit : Bool)
  /-- `COMMAND_MODE_HEAT`, mode bits 001 (30_encoding.md R46). -/
  | commandModeHeat (power : Bool) (fan : BitVec 2) (sleep : Bool) (temp : BitVec 4) (unit : Bool)
  /-- `COMMAND_MODE_DRY`, mode bits 010 (30_encoding.md R46). -/
  | commandModeDry (power : Bool) (fan : BitVec 2) (sleep : Bool) (temp : BitVec 4) (unit : Bool)
  /-- `COMMAND_MODE_COOL`, mode bits 100 (30_encoding.md R46). -/
  | commandModeCool (power : Bool) (fan : BitVec 2) (sleep : Bool) (temp : BitVec 4) (unit : Bool)
  /-- `COMMAND_MODE_FAN`, mode bits 110 (30_encoding.md R46). -/
  | commandModeFan (power : Bool) (fan : BitVec 2) (sleep : Bool) (temp : BitVec 4) (unit : Bool)
  /-- `DECODE_MODE_UNLISTED_011` (41_fieldpack.md R75, 30_encoding.md R50). -/
  | decodeModeUnlisted011 (power : Bool) (fan : BitVec 2) (sleep : Bool) (temp : BitVec 4) (unit : Bool) (ign : Ignored)
  /-- `DECODE_MODE_UNLISTED_101` (41_fieldpack.md R75, 30_encoding.md R50). -/
  | decodeModeUnlisted101 (power : Bool) (fan : BitVec 2) (sleep : Bool) (temp : BitVec 4) (unit : Bool) (ign : Ignored)
  /-- `DECODE_MODE_UNLISTED_111` (41_fieldpack.md R75, 30_encoding.md R50). -/
  | decodeModeUnlisted111 (power : Bool) (fan : BitVec 2) (sleep : Bool) (temp : BitVec 4) (unit : Bool) (ign : Ignored)
  /-- `DECODE_ANY`: the view of `DECODE`, no bit required to match (43_decode.md R90, R95). -/
  | decodeAny (mode : BitVec 3) (power : Bool) (fan : BitVec 2) (sleep : Bool) (temp : BitVec 4) (unit : Bool) (ign : Ignored)
  /-- `COMMAND_CELSIUS`: unit bit 0, temp never 1111 (42_encode.md R82). -/
  | commandCelsius (mode : BitVec 3) (power : Bool) (fan : BitVec 2) (sleep : Bool) (temp : BitVec 4)
  /-- `COMMAND_FAHRENHEIT`: unit bit 1, temp 0000 (42_encode.md R83). -/
  | commandFahrenheit (mode : BitVec 3) (power : Bool) (fan : BitVec 2) (sleep : Bool)
deriving DecidableEq, Repr

/-- A row of spec/opcode_table.json: its name, the length of its format in bits, its mask and the value its masked
bits have. -/
structure TableRow where
  mnemonic : String
  nbits : Nat
  mask : Nat
  pattern : Nat
deriving DecidableEq, Repr

/-- The bits of one instruction: how many, and their value with bit 0 least significant. -/
structure BitString where
  nbits : Nat
  bits : Nat
deriving DecidableEq, Repr

/-- Why the decoder refuses a string of bits. -/
inductive DecodeError
  /-- The length is neither format's (30_encoding.md R57: no variable-length form). -/
  | lengthOfNoFormat (nbits : Nat)
  /-- The number does not fit the stated length. -/
  | bitsBeyondLength (nbits bits : Nat)
deriving DecidableEq, Repr

end Sys2Proof
end

