-- ==== Sys2Proof/WellFormed.lean ====
section
/-! DEFINITION. Which terms of `Instr` stand for a row of spec/opcode_table.json on their own word.

The rows of format `WIRE32` overlap (every `COMMAND_MODE_AUTO` word is a `COMMAND` word and a `DECODE_ANY` word).
DESIGN CHOICE, log entry 2: a word is named by the matching row that fixes most bits, and an instruction is well formed
when its row is the one that names its word. The meanings do not depend on this: every row's meaning is `DECODE` of the
word. -/

namespace Sys2Proof

/-- The five mode patterns of 30_encoding.md R46; 011, 101, 111 are assigned to no mode. -/
def listedMode (mode : BitVec 3) : Bool :=
  mode == 0b000 || mode == 0b001 || mode == 0b010 || mode == 0b100 || mode == 0b110

/-- The ignored bits as `ENCODE` writes them: bits 10, 9, 1 set and no other (30_encoding.md R44, `CONST_MASK`, `BASE`). -/
def baseIgnored : Ignored := ⟨false, 0b000000000110000, 0b0010⟩

/-- `COMMAND_FAHRENHEIT` names the words with unit bit 1 and temp 0000. -/
def fahrenheitForm (temp : BitVec 4) (unit : Bool) : Bool := unit && temp == 0b0000

/-- `COMMAND_CELSIUS` names words with unit bit 0 and temp 0000 to 1110, never 1111 (42_encode.md R82). -/
def celsiusForm (temp : BitVec 4) (unit : Bool) : Bool := !unit && temp != 0b1111

/-- An instruction is well formed when no row that fixes more bits names its word, and the note of its own row holds. -/
def wellFormed : Instr → Bool
  | .rev8 _ => true
  | .encode _ => true
  | .decode _ => true
  | .reservedOp3 => true
  | .command mode _ _ _ temp unit => !listedMode mode && !celsiusForm temp unit && !fahrenheitForm temp unit
  | .commandModeAuto _ _ _ temp unit => !fahrenheitForm temp unit
  | .commandModeHeat _ _ _ temp unit => !fahrenheitForm temp unit
  | .commandModeDry _ _ _ temp unit => !fahrenheitForm temp unit
  | .commandModeCool _ _ _ temp unit => !fahrenheitForm temp unit
  | .commandModeFan _ _ _ temp unit => !fahrenheitForm temp unit
  | .decodeModeUnlisted011 _ _ _ _ _ ign => ign != baseIgnored
  | .decodeModeUnlisted101 _ _ _ _ _ ign => ign != baseIgnored
  | .decodeModeUnlisted111 _ _ _ _ _ ign => ign != baseIgnored
  | .decodeAny mode _ _ _ _ _ ign => listedMode mode && ign != baseIgnored
  | .commandCelsius mode _ _ _ temp => !listedMode mode && celsiusForm temp false
  | .commandFahrenheit _ _ _ _ => true

end Sys2Proof
end

