-- ==== Sys2Proof/Decode.lean ====
section
/-! DEFINITION. From bits to `Instr` and back, written from spec/opcode_table.json and 30_encoding.md.

Format `WIRE32` is one 32-bit word (R44). Format `REQ` is the signals of R52; the spec gives them as parallel signals and
packs them nowhere, so the 56-bit packing here is the model's (DESIGN CHOICE, log entry 6): `op` in bits 1:0 as the table
numbers them, then the other inputs in the order of R52's port list, each from its lowest bit up. -/

namespace Sys2Proof

/-! The rows of spec/opcode_table.json. -/

def requestBits : Nat := 56
def wireBits : Nat := 32

def rowRev8 : TableRow := ⟨"REV8", requestBits, 0x3, 0x0⟩
def rowEncode : TableRow := ⟨"ENCODE", requestBits, 0x3, 0x1⟩
def rowDecode : TableRow := ⟨"DECODE", requestBits, 0x3, 0x2⟩
def rowReservedOp3 : TableRow := ⟨"RESERVED_OP3", requestBits, 0x3, 0x3⟩
def rowCommand : TableRow := ⟨"COMMAND", wireBits, 0x020FFFEF, 0x00000602⟩
def rowModeAuto : TableRow := ⟨"COMMAND_MODE_AUTO", wireBits, 0xE20FFFEF, 0x00000602⟩
def rowModeHeat : TableRow := ⟨"COMMAND_MODE_HEAT", wireBits, 0xE20FFFEF, 0x20000602⟩
def rowModeDry : TableRow := ⟨"COMMAND_MODE_DRY", wireBits, 0xE20FFFEF, 0x40000602⟩
def rowModeCool : TableRow := ⟨"COMMAND_MODE_COOL", wireBits, 0xE20FFFEF, 0x80000602⟩
def rowModeFan : TableRow := ⟨"COMMAND_MODE_FAN", wireBits, 0xE20FFFEF, 0xC0000602⟩
def rowUnlisted011 : TableRow := ⟨"DECODE_MODE_UNLISTED_011", wireBits, 0xE0000000, 0x60000000⟩
def rowUnlisted101 : TableRow := ⟨"DECODE_MODE_UNLISTED_101", wireBits, 0xE0000000, 0xA0000000⟩
def rowUnlisted111 : TableRow := ⟨"DECODE_MODE_UNLISTED_111", wireBits, 0xE0000000, 0xE0000000⟩
def rowAny : TableRow := ⟨"DECODE_ANY", wireBits, 0x00000000, 0x00000000⟩
def rowCelsius : TableRow := ⟨"COMMAND_CELSIUS", wireBits, 0x020FFFFF, 0x00000602⟩
def rowFahrenheit : TableRow := ⟨"COMMAND_FAHRENHEIT", wireBits, 0x02FFFFFF, 0x00000612⟩

/-- The row an instruction belongs to. -/
def rowOf : Instr → TableRow
  | .rev8 _ => rowRev8
  | .encode _ => rowEncode
  | .decode _ => rowDecode
  | .reservedOp3 => rowReservedOp3
  | .command _ _ _ _ _ _ => rowCommand
  | .commandModeAuto _ _ _ _ _ => rowModeAuto
  | .commandModeHeat _ _ _ _ _ => rowModeHeat
  | .commandModeDry _ _ _ _ _ => rowModeDry
  | .commandModeCool _ _ _ _ _ => rowModeCool
  | .commandModeFan _ _ _ _ _ => rowModeFan
  | .decodeModeUnlisted011 _ _ _ _ _ _ => rowUnlisted011
  | .decodeModeUnlisted101 _ _ _ _ _ _ => rowUnlisted101
  | .decodeModeUnlisted111 _ _ _ _ _ _ => rowUnlisted111
  | .decodeAny _ _ _ _ _ _ _ => rowAny
  | .commandCelsius _ _ _ _ _ => rowCelsius
  | .commandFahrenheit _ _ _ _ => rowFahrenheit

/-- The masked bits of the word have the row's value. -/
def rowMatches (row : TableRow) (w : Word) : Bool :=
  w &&& BitVec.ofNat 32 row.mask == BitVec.ofNat 32 row.pattern

/-! ## Decoding -/

/-- The letters of the patterns of 30_encoding.md R44. -/
def wireMode (w : Word) : BitVec 3 := w.extractLsb' 29 3
def wirePower (w : Word) : Bool := w.getLsbD 28
def wireFan (w : Word) : BitVec 2 := w.extractLsb' 26 2
def wireSleep (w : Word) : Bool := w.getLsbD 24
def wireTemp (w : Word) : BitVec 4 := w.extractLsb' 20 4
def wireUnit (w : Word) : Bool := w.getLsbD 4
def wireIgnored (w : Word) : Ignored := ⟨w.getLsbD 25, w.extractLsb' 5 15, w.extractLsb' 0 4⟩

/-- A wire word as an instruction of format `WIRE32`: the matching row that fixes most bits (log entry 2). Total: every
32-bit word is some row's, since `DECODE_ANY` matches all (43_decode.md R90). -/
def decodeWire (w : Word) : Instr :=
  if rowMatches rowFahrenheit w then
    .commandFahrenheit (wireMode w) (wirePower w) (wireFan w) (wireSleep w)
  else if rowMatches rowModeAuto w then
    .commandModeAuto (wirePower w) (wireFan w) (wireSleep w) (wireTemp w) (wireUnit w)
  else if rowMatches rowModeHeat w then
    .commandModeHeat (wirePower w) (wireFan w) (wireSleep w) (wireTemp w) (wireUnit w)
  else if rowMatches rowModeDry w then
    .commandModeDry (wirePower w) (wireFan w) (wireSleep w) (wireTemp w) (wireUnit w)
  else if rowMatches rowModeCool w then
    .commandModeCool (wirePower w) (wireFan w) (wireSleep w) (wireTemp w) (wireUnit w)
  else if rowMatches rowModeFan w then
    .commandModeFan (wirePower w) (wireFan w) (wireSleep w) (wireTemp w) (wireUnit w)
  else if rowMatches rowCelsius w && wireTemp w != 0b1111 then
    .commandCelsius (wireMode w) (wirePower w) (wireFan w) (wireSleep w) (wireTemp w)
  else if rowMatches rowCommand w then
    .command (wireMode w) (wirePower w) (wireFan w) (wireSleep w) (wireTemp w) (wireUnit w)
  else if rowMatches rowUnlisted011 w then
    .decodeModeUnlisted011 (wirePower w) (wireFan w) (wireSleep w) (wireTemp w) (wireUnit w) (wireIgnored w)
  else if rowMatches rowUnlisted101 w then
    .decodeModeUnlisted101 (wirePower w) (wireFan w) (wireSleep w) (wireTemp w) (wireUnit w) (wireIgnored w)
  else if rowMatches rowUnlisted111 w then
    .decodeModeUnlisted111 (wirePower w) (wireFan w) (wireSleep w) (wireTemp w) (wireUnit w) (wireIgnored w)
  else
    .decodeAny (wireMode w) (wirePower w) (wireFan w) (wireSleep w) (wireTemp w) (wireUnit w) (wireIgnored w)

/-- The operation select of 30_encoding.md R51; an operation's instruction keeps only the inputs it reads (R56). -/
def decodeRequest (r : Request) : Instr :=
  if r.op = 0b00 then .rev8 r.wordIn
  else if r.op = 0b01 then .encode r.cmdIn
  else if r.op = 0b10 then .decode r.wordIn
  else .reservedOp3

/-- `cmd_in` in 22 bits, in the order of 30_encoding.md R52 from bit 0 up (log entry 6). -/
def packCmd (c : CmdPort) : BitVec 22 :=
  ((BitVec.ofBool c.unit).setWidth 22 <<< 21) ||| (c.temperature.setWidth 22 <<< 13) |||
    ((BitVec.ofBool c.sleep).setWidth 22 <<< 12) ||| (c.fanSpeed.setWidth 22 <<< 4) ||| (c.mode.setWidth 22 <<< 1) |||
    (BitVec.ofBool c.power).setWidth 22

def unpackCmd (b : BitVec 22) : CmdPort :=
  ⟨b.getLsbD 0, b.extractLsb' 1 3, b.extractLsb' 4 8, b.getLsbD 12, b.extractLsb' 13 8, b.getLsbD 21⟩

/-- The inputs of 30_encoding.md R52 in 56 bits: `op` in bits 1:0, `word_in` in 33:2, `cmd_in` in 55:34 (log entry 6). -/
def packRequest (r : Request) : BitVec 56 :=
  ((packCmd r.cmdIn).setWidth 56 <<< 34) ||| (r.wordIn.setWidth 56 <<< 2) ||| r.op.setWidth 56

def unpackRequest (b : BitVec 56) : Request := ⟨b.extractLsb' 0 2, b.extractLsb' 2 32, unpackCmd (b.extractLsb' 34 22)⟩

/-- The instruction in a string of bits; a length that is neither format's, or bits beyond the length, are refused. -/
def decodeBits (nbits w : Nat) : Except DecodeError Instr :=
  if 2 ^ nbits ≤ w then .error (.bitsBeyondLength nbits w)
  else if nbits = wireBits then .ok (decodeWire (BitVec.ofNat 32 w))
  else if nbits = requestBits then .ok (decodeRequest (unpackRequest (BitVec.ofNat 56 w)))
  else .error (.lengthOfNoFormat nbits)

/-- The length of the instruction whose first `nbits` bits the table gives. The table gives a `REQ` row its two `op` bits
only, in one byte; the bits above are the request's other inputs, all 0. -/
def tableLength (nbits : Nat) : Nat := if nbits < wireBits then requestBits else nbits

/-- The instruction the decoder reads from a row of spec/opcode_table.json, bits numbered as the table numbers them. -/
def decodeTableWord (nbits w : Nat) : Option Instr :=
  match decodeBits (tableLength nbits) w with
  | .ok i => some i
  | .error _ => none

/-! ## Encoding -/

/-- The wire word with the given fields, bit 31 first (30_encoding.md R44). -/
def wireWord (mode : BitVec 3) (power : Bool) (fan : BitVec 2) (sleep : Bool) (temp : BitVec 4) (unit : Bool)
    (ign : Ignored) : Word :=
  (mode.setWidth 32 <<< 29) ||| ((BitVec.ofBool power).setWidth 32 <<< 28) ||| (fan.setWidth 32 <<< 26) |||
    ((BitVec.ofBool ign.bit25).setWidth 32 <<< 25) ||| ((BitVec.ofBool sleep).setWidth 32 <<< 24) |||
    (temp.setWidth 32 <<< 20) ||| (ign.bits19to5.setWidth 32 <<< 5) ||| ((BitVec.ofBool unit).setWidth 32 <<< 4) |||
    ign.bits3to0.setWidth 32

/-- An instruction as it is presented: a request with the inputs it does not read at zero (30_encoding.md R51), or the
wire word that its row's pattern and its letters spell. -/
def presentedOf : Instr → Presented
  | .rev8 w => .request ⟨0b00, w, zeroCmd⟩
  | .encode c => .request ⟨0b01, 0, c⟩
  | .decode w => .request ⟨0b10, w, zeroCmd⟩
  | .reservedOp3 => .request ⟨0b11, 0, zeroCmd⟩
  | .command m p f s t u => .wire (wireWord m p f s t u baseIgnored)
  | .commandModeAuto p f s t u => .wire (wireWord 0b000 p f s t u baseIgnored)
  | .commandModeHeat p f s t u => .wire (wireWord 0b001 p f s t u baseIgnored)
  | .commandModeDry p f s t u => .wire (wireWord 0b010 p f s t u baseIgnored)
  | .commandModeCool p f s t u => .wire (wireWord 0b100 p f s t u baseIgnored)
  | .commandModeFan p f s t u => .wire (wireWord 0b110 p f s t u baseIgnored)
  | .decodeModeUnlisted011 p f s t u x => .wire (wireWord 0b011 p f s t u x)
  | .decodeModeUnlisted101 p f s t u x => .wire (wireWord 0b101 p f s t u x)
  | .decodeModeUnlisted111 p f s t u x => .wire (wireWord 0b111 p f s t u x)
  | .decodeAny m p f s t u x => .wire (wireWord m p f s t u x)
  | .commandCelsius m p f s t => .wire (wireWord m p f s t false baseIgnored)
  | .commandFahrenheit m p f s => .wire (wireWord m p f s 0b0000 true baseIgnored)

/-- The bits of an instruction. -/
def encodeInstr (i : Instr) : BitString :=
  match presentedOf i with
  | .request r => ⟨requestBits, (packRequest r).toNat⟩
  | .wire w => ⟨wireBits, w.toNat⟩

end Sys2Proof
end

