-- ==== Sys2Proof/Config.lean ====
section
/-! DEFINITION. The parameters that 00_scope.md R9 leaves open and makes fields of a model's configuration.
The value this hardware takes is `Machine.hardware` (Machine/Params.lean). -/

namespace Sys2Proof

/-- Constants of the build, never read or changed by an operation (10_state.md R30, 00_scope.md R9).
R9's `OP_W`, `MODE_W`, `TEMP_W`, `FAN_W`, `REV_IN_W` are the widths of `Request` and `CmdPort`;
`LATENCY` and `WIRE_SERIAL_ORDER` get no argument in a model (R9). -/
structure Config where
  /-- `ENC_FAN_REV`: `ENCODE` writes the fan field bit-reversed. -/
  encFanRev : Bool
  /-- `DEC_FAN_REV`: `DECODE` bit-reverses the fan field. -/
  decFanRev : Bool
deriving DecidableEq, Repr

end Sys2Proof
end

