-- ==== Sys2Proof/Machine/Params.lean ====
section
/-! DEFINITION. The constants of 00_scope.md R8, the masks of 30_encoding.md R45 and this hardware's configuration. -/

namespace Sys2Proof.Machine

/-- The value this hardware takes for the two fan parameters (00_scope.md R9, 90_conflicts.md C2; UNVERIFIED against any
device, log entry 3). -/
def hardware : Config := ⟨false, false⟩

/-! 00_scope.md R8 (the literals are unaudited: R5, log entry 10). -/

abbrev base : Word := 0x00000602
abbrev tempMin : Int := 16
abbrev tempMax : Int := 30
abbrev tempBase : Int := 16
abbrev modeOff : Nat := 29
abbrev modeN : Nat := 3
abbrev powerBit : Nat := 28
abbrev fanOff : Nat := 26
abbrev fanN : Nat := 2
abbrev sleepBit : Nat := 24
/-- Bits 23:20, the resolution of 90_conflicts.md C1 (UNVERIFIED against any device, log entry 9). -/
abbrev tempOff : Nat := 20
abbrev tempN : Nat := 4
abbrev unitBit : Nat := 4
abbrev fanMax : Int := 3

/-! 30_encoding.md R45. -/

abbrev modeMask : Word := 0xE0000000
abbrev powerMask : Word := 0x10000000
abbrev fanMask : Word := 0x0C000000
abbrev sleepMask : Word := 0x01000000
abbrev tempMask : Word := 0x00F00000
abbrev unitMask : Word := 0x00000010
abbrev fieldMask : Word := 0xFDF00010
abbrev zeroMask : Word := 0x020FF9ED
abbrev constMask : Word := 0x020FFFEF

end Sys2Proof.Machine
end

