-- ==== Sys2Proof/Machine/Operands.lean ====
section
/-! DEFINITION. The bit reversal (40_bitrev.md), the field-packing engine (41_fieldpack.md) and the reading of a `Command`
from the port and onto it (30_encoding.md R53, R55). None reads or writes state, sets a flag or raises anything. -/

namespace Sys2Proof.Machine

/-! ## Bit reversal -/

/-- 40_bitrev.md R60: bit 0 of the operand becomes the highest bit of the result. -/
def rev8 (x : Byte) : Byte :=
  BitVec.ofBool (x.getLsbD 0) ++ BitVec.ofBool (x.getLsbD 1) ++ BitVec.ofBool (x.getLsbD 2) ++
    BitVec.ofBool (x.getLsbD 3) ++ BitVec.ofBool (x.getLsbD 4) ++ BitVec.ofBool (x.getLsbD 5) ++
    BitVec.ofBool (x.getLsbD 6) ++ BitVec.ofBool (x.getLsbD 7)

/-! The three steps of 40_bitrev.md R61, one way to meet R60. -/

def swapBits (x : Byte) : Byte := ((x >>> 1) &&& 0x55) ||| ((x &&& 0x55) <<< 1)
def swapPairs (x : Byte) : Byte := ((x >>> 2) &&& 0x33) ||| ((x &&& 0x33) <<< 2)
def swapNibbles (x : Byte) : Byte := ((x >>> 4) &&& 0x0F) ||| ((x &&& 0x0F) <<< 4)

/-- 40_bitrev.md R61. -/
def rev8Swap (x : Byte) : Byte := swapNibbles (swapPairs (swapBits x))

/-- 40_bitrev.md R62: the operand arrives on 32 bits, bits above bit 7 are ignored, the result is zero-extended. -/
def rev8Word (w : Word) : Word := (rev8 (w.setWidth 8)).setWidth 32

/-- `REV4`, 41_fieldpack.md R72. -/
def rev4 (v : BitVec 4) : BitVec 4 := (rev8 (v.setWidth 8) >>> 4).setWidth 4

/-- `REV2`, 41_fieldpack.md R73. -/
def rev2 (v : BitVec 2) : BitVec 2 := (rev8 (v.setWidth 8) >>> 6).setWidth 2

/-! ## Shift and mask -/

/-- `FEXT`, 41_fieldpack.md R67: shift the field down and keep its `n` bits. -/
def fext (w : Word) (off n : Nat) : BitVec n := (w >>> off).setWidth n

/-- `FINS`, 41_fieldpack.md R68: OR the low `n` bits of the value into the field. -/
def fins (w : Word) (off n : Nat) (v : Word) : Word := w ||| ((v &&& BitVec.ofNat 32 (2 ^ n - 1)) <<< off)

/-- `BSET`, 41_fieldpack.md R69. -/
def bset (w : Word) (i : Nat) (b : Bool) : Word := if b then w ||| ((1 : Word) <<< i) else w

/-! ## Offset arithmetic, on mathematical integers (00_scope.md R11) -/

/-- `CLAMP`, 41_fieldpack.md R70. -/
def clamp (v lo hi : Int) : Int := if v < lo then lo else if v > hi then hi else v

/-- The magnitude of a Celsius temperature, 0 to 14 (41_fieldpack.md R71). -/
def celsiusMagnitude (temperature : Int) : Int := clamp temperature tempMin tempMax - tempBase

/-- The temperature of a decoded magnitude: the offset comes back in Celsius only (41_fieldpack.md R71, 90_conflicts.md C6). -/
def temperatureOf (unit : TempUnit) (magnitude : BitVec 4) : Int :=
  match unit with
  | .celsius => (magnitude.toNat : Int) + tempBase
  | .fahrenheit => (magnitude.toNat : Int)

/-! ## Mode tables and fan guard -/

/-- `MODE_ENC`, 41_fieldpack.md R74. -/
def modeEnc : Mode → BitVec 3
  | .auto => 0b000
  | .heat => 0b001
  | .dry => 0b010
  | .cool => 0b100
  | .fan => 0b110

/-- `MODE_DEC`, 41_fieldpack.md R75: an unlisted pattern reads as Auto. -/
def modeDec (p : BitVec 3) : Mode :=
  if p = 0b001 then .heat
  else if p = 0b010 then .dry
  else if p = 0b100 then .cool
  else if p = 0b110 then .fan
  else .auto

/-- `FAN_OK`, 41_fieldpack.md R76. -/
def fanOk (f : Int) : Bool := 0 ≤ f && f ≤ fanMax

/-- The fan field in the bit order a fan parameter selects (30_encoding.md R48). -/
def fanOrder (reversed : Bool) (f : BitVec 2) : BitVec 2 := if reversed then rev2 f else f

/-! ## The port's `Command` -/

/-- 30_encoding.md R53: the mode a code stands for; 5, 6, 7 stand for none. -/
def modeOfCode (code : BitVec 3) : Option Mode :=
  if code = 0 then some .auto
  else if code = 1 then some .cool
  else if code = 2 then some .dry
  else if code = 3 then some .fan
  else if code = 4 then some .heat
  else none

/-- 30_encoding.md R53. -/
def codeOfMode : Mode → BitVec 3
  | .auto => 0
  | .cool => 1
  | .dry => 2
  | .fan => 3
  | .heat => 4

def unitOfBit (b : Bool) : TempUnit := if b then .fahrenheit else .celsius

def bitOfUnit : TempUnit → Bool
  | .celsius => false
  | .fahrenheit => true

/-- `cmd_in` as a `Command` (30_encoding.md R53, 42_encode.md R89). A code that stands for no mode is taken as Auto, whose
pattern 000 is what R55 has `ENCODE` write (log entry 7). -/
def commandOfPort (c : CmdPort) : Command where
  power := c.power
  mode := (modeOfCode c.mode).getD .auto
  fanSpeed := (c.fanSpeed.toNat : Int)
  sleep := c.sleep
  temperature := (c.temperature.toNat : Int)
  unit := unitOfBit c.unit

/-- A `Command` on the port (30_encoding.md R53, 43_decode.md R97). An integer outside 0 to 255 has no port form in the spec
(10_state.md R20, R21, 42_encode.md R89); DESIGN CHOICE, unsafe, log entry 13: it is put on the port modulo 256. `DECODE`
produces none such. -/
def portOfCommand (c : Command) : CmdPort where
  power := c.power
  mode := codeOfMode c.mode
  fanSpeed := BitVec.ofInt 8 c.fanSpeed
  sleep := c.sleep
  temperature := BitVec.ofInt 8 c.temperature
  unit := bitOfUnit c.unit

end Sys2Proof.Machine
end

