-- ==== Sys2Proof/Machine/Codec.lean ====
section
/-! DEFINITION. The codec at the typed level (00_scope.md R16): `ENCODE` (42_encode.md), `DECODE` (43_decode.md), the
pseudo-operations of 30_encoding.md R59 and the transaction as a function from request to response. -/

namespace Sys2Proof.Machine

/-! ## ENCODE -/

/-- Step 2 (42_encode.md R82, R83): Celsius writes the reversed magnitude; Fahrenheit writes nothing. -/
def stepTemp (c : Command) (w : Word) : Word :=
  match c.unit with
  | .celsius => fins w tempOff tempN ((rev4 (BitVec.ofInt 4 (celsiusMagnitude c.temperature))).setWidth 32)
  | .fahrenheit => w

/-- Step 3 (42_encode.md R84). -/
def stepPower (c : Command) (w : Word) : Word := bset w powerBit c.power

/-- Step 4 (42_encode.md R84). -/
def stepUnit (c : Command) (w : Word) : Word := bset w unitBit (bitOfUnit c.unit)

/-- Step 5 (42_encode.md R84). -/
def stepSleep (c : Command) (w : Word) : Word := bset w sleepBit c.sleep

/-- Step 6 (42_encode.md R85). -/
def stepMode (c : Command) (w : Word) : Word := fins w modeOff modeN ((modeEnc c.mode).setWidth 32)

/-- Step 7 (42_encode.md R86): a fan speed outside 0 to 3 is dropped, not masked. -/
def stepFan (cfg : Config) (c : Command) (w : Word) : Word :=
  if fanOk c.fanSpeed then
    fins w fanOff fanN ((fanOrder cfg.encFanRev (BitVec.ofInt 2 c.fanSpeed)).setWidth 32)
  else w

/-- Steps 2 to 7 in the order of 42_encode.md R80; any other order gives the same word (R87). -/
def encodeSteps (cfg : Config) (c : Command) : List (Word → Word) :=
  [stepTemp c, stepPower c, stepUnit c, stepSleep c, stepMode c, stepFan cfg c]

/-- `ENCODE` (42_encode.md R80): the steps, applied in turn to the base constant of step 1 (R81). -/
def encodeCommand (cfg : Config) (c : Command) : Word :=
  stepFan cfg c (stepMode c (stepSleep c (stepUnit c (stepPower c (stepTemp c base)))))

/-! ## DECODE -/

/-- `unit` is needed before the temperature (43_decode.md R91). -/
def decodeUnit (w : Word) : TempUnit := unitOfBit (w.getLsbD unitBit)

/-- `DECODE` (43_decode.md R90): reads the bits of `FIELD_MASK` and no others (R95). -/
def decodeWord (cfg : Config) (w : Word) : Command where
  power := w.getLsbD powerBit
  mode := modeDec (fext w modeOff modeN)
  fanSpeed := ((fanOrder cfg.decFanRev (fext w fanOff fanN)).toNat : Int)
  sleep := w.getLsbD sleepBit
  temperature := temperatureOf (decodeUnit w) (rev4 (fext w tempOff tempN))
  unit := decodeUnit w

/-! ## Pseudo-operations (30_encoding.md R59) -/

/-- `ROUNDTRIP c -> c2`. -/
def roundtrip (cfg : Config) (c : Command) : Command := decodeWord cfg (encodeCommand cfg c)

/-- `NORMALISE w -> w2`. -/
def normalise (cfg : Config) (w : Word) : Word := encodeCommand cfg (decodeWord cfg w)

/-- `REV4 v -> r`: a `REV8` transaction, then the host's shift. -/
def hostRev4 (v : BitVec 4) : Word := rev8Word (v.setWidth 32) >>> 4

/-- `REV2 v -> r`: a `REV8` transaction, then the host's shift. -/
def hostRev2 (v : BitVec 2) : Word := rev8Word (v.setWidth 32) >>> 6

/-! ## A transaction as a function -/

/-- The response to a request (10_state.md R26, 00_scope.md R16). -/
def transact (cfg : Config) : Transaction → Response
  | .rev8 x => .word (rev8Word x)
  | .encode c => .word (encodeCommand cfg c)
  | .decode w => .command (decodeWord cfg w)

/-- A written line says what the block answers (30_encoding.md R58). -/
def lineHolds (cfg : Config) (l : Line) : Bool := transact cfg l.transaction == l.result

/-- The signals on which the host presents a typed transaction (30_encoding.md R51, R53); inputs not read are 0. It is that
transaction's presentation where `fitsPort` holds; elsewhere the integers are taken modulo 256 (DESIGN CHOICE, unsafe, log
entry 13). -/
def requestOfTransaction : Transaction → Request
  | .rev8 x => ⟨0b00, x, zeroCmd⟩
  | .encode c => ⟨0b01, 0, portOfCommand c⟩
  | .decode w => ⟨0b10, w, zeroCmd⟩

/-- The transactions the port can carry: the two integers of a `Command` lie in 0 to 255 (42_encode.md R89). -/
def fitsPort : Transaction → Bool
  | .rev8 _ => true
  | .encode c => 0 ≤ c.fanSpeed && c.fanSpeed ≤ 255 && 0 ≤ c.temperature && c.temperature ≤ 255
  | .decode _ => true

/-- A response on the port's outputs: the output an operation does not produce is 0 (30_encoding.md R56). -/
def portOfResponse : Response → PortResponse
  | .word w => ⟨w, zeroCmd⟩
  | .command c => ⟨0, portOfCommand c⟩

end Sys2Proof.Machine
end

