-- ==== Sys2Proof/Machine/State.lean ====
section
/-! DEFINITION. The state, the faults, the refusals and the state at reset.

The block has no architectural state (10_state.md R26 to R31, 20_memory.md R33): no register, program counter, flag,
control register, hidden state or memory. `State` holds the port of 30_encoding.md R52, every signal at its width, and one
field of the model's own. -/

namespace Sys2Proof.Machine

/-- The signals of the port (30_encoding.md R52). The inputs are the host's: no step changes them. The outputs are what the
last step drove, kept until the next one (DESIGN CHOICE, unsafe, log entry 14). -/
structure State where
  /-- The MODEL's own field: the format of 30_encoding.md R43 that names the pending item. No output depends on it
  (log entry 5). -/
  format : Format
  /-- `op`, input. -/
  op : BitVec 2
  /-- `word_in`, input. -/
  wordIn : Word
  /-- `cmd_in`, input. -/
  cmdIn : CmdPort
  /-- `word_out`, output. -/
  wordOut : Word
  /-- `cmd_out`, output. -/
  cmdOut : CmdPort
deriving DecidableEq, Repr

/-- The faults: none. The set of exceptions is empty, and a step has no fault outcome (60_exceptions.md R116, R130).
Nothing raises a fault. -/
inductive Fault
deriving DecidableEq, Repr

/-- The refusals. -/
inductive Refusal
  /-- Raised by `exec` for an instruction that has no meaning yet; no arm raises it. Safe: nothing is claimed of it. -/
  | notModelled (mnemonic : String)
  /-- Raised by `RESERVED_OP3`: the response to `op = 0b11` is not specified and a model refuses the request
  (30_encoding.md R54). Safe: no claim can rest on a response. -/
  | reservedOperationSelect
deriving DecidableEq, Repr

/-- Before any request. There is nothing to reset and the outputs are unspecified (70_reset_and_hazards.md R136, R137);
DESIGN CHOICE, unsafe, log entry 4: every signal is 0. -/
def State.reset : State where
  format := .req
  op := 0
  wordIn := 0
  cmdIn := zeroCmd
  wordOut := 0
  cmdOut := zeroCmd

end Sys2Proof.Machine
end

