-- ==== Sys2Proof/Machine/Ops.lean ====
section
/-! DEFINITION. The named operations over the port.

There is no memory and no register to operate on (20_memory.md R33, 10_state.md R27), and no exception to take or to return
from (60_exceptions.md R116, R120, R121). -/

namespace Sys2Proof.Machine

/-- Outcomes of this machine. -/
abbrev Result := Host.Outcome State Fault Refusal

/-- The inputs as one request (30_encoding.md R52). -/
def requestNow (s : State) : Request := ⟨s.op, s.wordIn, s.cmdIn⟩

/-- The outputs as one response (30_encoding.md R52). -/
def responseNow (s : State) : PortResponse := ⟨s.wordOut, s.cmdOut⟩

/-- The host sets the inputs (60_exceptions.md R129). The outputs keep the last response until the next step; the spec does not
say what they hold there (DESIGN CHOICE, unsafe, log entry 14). -/
def present (s : State) (r : Request) : State :=
  { s with format := .req, op := r.op, wordIn := r.wordIn, cmdIn := r.cmdIn }

/-- The host hands a wire word to `DECODE` (10_state.md R24); `cmd_in` is not read and stays (log
entries 5 and 8). The outputs keep the last response (log entry 14). -/
def presentWire (s : State) (w : Word) : State :=
  { s with format := .wire32, op := 0b10, wordIn := w }

/-- Drive a word; `cmd_out` is all zero (30_encoding.md R56). -/
def driveWord (s : State) (w : Word) : State := { s with wordOut := w, cmdOut := zeroCmd }

/-- Drive a command; `word_out` is zero (30_encoding.md R56). -/
def driveCommand (s : State) (c : CmdPort) : State := { s with wordOut := 0, cmdOut := c }

/-- The `DECODE` transaction on a word (43_decode.md R97). -/
def decodeTransaction (w : Word) (s : State) : Result :=
  .next (driveCommand s (portOfCommand (decodeWord hardware w)))

/-- The instruction the inputs stand for. A pending wire word is one only while the select says `DECODE`; every other
combination of inputs is a request (30_encoding.md R51; log entry 5). -/
def fetch (s : State) : Instr :=
  match s.format with
  | .wire32 => if s.op = 0b10 then decodeWire s.wordIn else decodeRequest (requestNow s)
  | .req => decodeRequest (requestNow s)

end Sys2Proof.Machine
end

