-- ==== Sys2Proof/Machine/Requests.lean ====
section
/-! DEFINITION. The meanings of the four rows of format `REQ` (30_encoding.md R51). -/

namespace Sys2Proof.Machine

/-- `REV8` (40_bitrev.md R60, R62; 30_encoding.md R56). -/
def execRev8 (wordIn : Word) (s : State) : Result := .next (driveWord s (rev8Word wordIn))

/-- `ENCODE` at the port (42_encode.md R80, R89; 30_encoding.md R56). -/
def execEncode (cmdIn : CmdPort) (s : State) : Result :=
  .next (driveWord s (encodeCommand hardware (commandOfPort cmdIn)))

/-- `DECODE` at the port (43_decode.md R90, R97; 30_encoding.md R56). -/
def execDecode (wordIn : Word) (s : State) : Result := decodeTransaction wordIn s

/-- `op = 0b11` is reserved: a model refuses the request and must not pick a result (30_encoding.md R54; safe, log
entry 11). -/
def execReservedOp3 (_ : State) : Result := .refused .reservedOperationSelect

end Sys2Proof.Machine
end

