-- ==== Sys2Proof/Machine/Wire.lean ====
section
/-! DEFINITION. The meanings of the twelve rows of format `WIRE32`: a wire word reaches the block as the operand of `DECODE`
(10_state.md R24, 43_decode.md R90), so a row's meaning is that transaction on the word its letters spell (DESIGN CHOICE, safe at
the port, log entry 1). -/

namespace Sys2Proof.Machine

/-- `COMMAND` (30_encoding.md R44). -/
def execCommand (m : BitVec 3) (p : Bool) (f : BitVec 2) (sl : Bool) (t : BitVec 4) (u : Bool) (s : State) : Result :=
  decodeTransaction (wireWord m p f sl t u baseIgnored) s

/-- `COMMAND_MODE_AUTO` (30_encoding.md R46). -/
def execCommandModeAuto (p : Bool) (f : BitVec 2) (sl : Bool) (t : BitVec 4) (u : Bool) (s : State) : Result :=
  decodeTransaction (wireWord 0b000 p f sl t u baseIgnored) s

/-- `COMMAND_MODE_HEAT` (30_encoding.md R46). -/
def execCommandModeHeat (p : Bool) (f : BitVec 2) (sl : Bool) (t : BitVec 4) (u : Bool) (s : State) : Result :=
  decodeTransaction (wireWord 0b001 p f sl t u baseIgnored) s

/-- `COMMAND_MODE_DRY` (30_encoding.md R46). -/
def execCommandModeDry (p : Bool) (f : BitVec 2) (sl : Bool) (t : BitVec 4) (u : Bool) (s : State) : Result :=
  decodeTransaction (wireWord 0b010 p f sl t u baseIgnored) s

/-- `COMMAND_MODE_COOL` (30_encoding.md R46). -/
def execCommandModeCool (p : Bool) (f : BitVec 2) (sl : Bool) (t : BitVec 4) (u : Bool) (s : State) : Result :=
  decodeTransaction (wireWord 0b100 p f sl t u baseIgnored) s

/-- `COMMAND_MODE_FAN` (30_encoding.md R46). -/
def execCommandModeFan (p : Bool) (f : BitVec 2) (sl : Bool) (t : BitVec 4) (u : Bool) (s : State) : Result :=
  decodeTransaction (wireWord 0b110 p f sl t u baseIgnored) s

/-- `DECODE_MODE_UNLISTED_011` (41_fieldpack.md R75, 43_decode.md R93). -/
def execDecodeModeUnlisted011 (p : Bool) (f : BitVec 2) (sl : Bool) (t : BitVec 4) (u : Bool) (x : Ignored) (s : State) :
    Result :=
  decodeTransaction (wireWord 0b011 p f sl t u x) s

/-- `DECODE_MODE_UNLISTED_101` (41_fieldpack.md R75, 43_decode.md R93). -/
def execDecodeModeUnlisted101 (p : Bool) (f : BitVec 2) (sl : Bool) (t : BitVec 4) (u : Bool) (x : Ignored) (s : State) :
    Result :=
  decodeTransaction (wireWord 0b101 p f sl t u x) s

/-- `DECODE_MODE_UNLISTED_111` (41_fieldpack.md R75, 43_decode.md R93). -/
def execDecodeModeUnlisted111 (p : Bool) (f : BitVec 2) (sl : Bool) (t : BitVec 4) (u : Bool) (x : Ignored) (s : State) :
    Result :=
  decodeTransaction (wireWord 0b111 p f sl t u x) s

/-- `DECODE_ANY` (43_decode.md R90, R95). -/
def execDecodeAny (m : BitVec 3) (p : Bool) (f : BitVec 2) (sl : Bool) (t : BitVec 4) (u : Bool) (x : Ignored) (s : State) :
    Result :=
  decodeTransaction (wireWord m p f sl t u x) s

/-- `COMMAND_CELSIUS` (42_encode.md R82). -/
def execCommandCelsius (m : BitVec 3) (p : Bool) (f : BitVec 2) (sl : Bool) (t : BitVec 4) (s : State) : Result :=
  decodeTransaction (wireWord m p f sl t false baseIgnored) s

/-- `COMMAND_FAHRENHEIT` (42_encode.md R83). -/
def execCommandFahrenheit (m : BitVec 3) (p : Bool) (f : BitVec 2) (sl : Bool) (s : State) : Result :=
  decodeTransaction (wireWord m p f sl 0b0000 true baseIgnored) s

end Sys2Proof.Machine
end

