-- ==== Sys2Proof/Machine/Dispatch.lean ====
section
/-! DEFINITION. One arm per row of spec/opcode_table.json. -/

namespace Sys2Proof.Machine

def exec (i : Instr) (s : State) : Host.Outcome State Fault Refusal :=
  match i with
  | .rev8 w => Sys2Proof.Machine.execRev8 w s
  | .encode c => Sys2Proof.Machine.execEncode c s
  | .decode w => Sys2Proof.Machine.execDecode w s
  | .reservedOp3 => Sys2Proof.Machine.execReservedOp3 s
  | .command m p f sl t u => Sys2Proof.Machine.execCommand m p f sl t u s
  | .commandModeAuto p f sl t u => Sys2Proof.Machine.execCommandModeAuto p f sl t u s
  | .commandModeHeat p f sl t u => Sys2Proof.Machine.execCommandModeHeat p f sl t u s
  | .commandModeDry p f sl t u => Sys2Proof.Machine.execCommandModeDry p f sl t u s
  | .commandModeCool p f sl t u => Sys2Proof.Machine.execCommandModeCool p f sl t u s
  | .commandModeFan p f sl t u => Sys2Proof.Machine.execCommandModeFan p f sl t u s
  | .decodeModeUnlisted011 p f sl t u x => Sys2Proof.Machine.execDecodeModeUnlisted011 p f sl t u x s
  | .decodeModeUnlisted101 p f sl t u x => Sys2Proof.Machine.execDecodeModeUnlisted101 p f sl t u x s
  | .decodeModeUnlisted111 p f sl t u x => Sys2Proof.Machine.execDecodeModeUnlisted111 p f sl t u x s
  | .decodeAny m p f sl t u x => Sys2Proof.Machine.execDecodeAny m p f sl t u x s
  | .commandCelsius m p f sl t => Sys2Proof.Machine.execCommandCelsius m p f sl t s
  | .commandFahrenheit m p f sl => Sys2Proof.Machine.execCommandFahrenheit m p f sl s

end Sys2Proof.Machine
end

