-- ==== Sys2Proof/Machine/Step.lean ====
section
/-! DEFINITION. One step is one transaction (00_scope.md R15, 70_reset_and_hazards.md R141). -/

namespace Sys2Proof.Machine

/-- The block answers the inputs it is given; they stay until the host changes them (DESIGN CHOICE, safe for responses, log
entry 8). -/
def step (s : State) : Host.Outcome State Fault Refusal := exec (fetch s) s

/-- Present an opcode-table row's bits: 32 bits are a wire word, fewer (or all 56) are a request. Other lengths present
nothing. -/
def State.withFetchWord (s : State) (nbits w : Nat) : State :=
  if tableLength nbits = wireBits then presentWire s (BitVec.ofNat 32 w)
  else if tableLength nbits = requestBits then present s (unpackRequest (BitVec.ofNat 56 w))
  else s

end Sys2Proof.Machine
end

