-- ==== Sys2Proof/Laws/Wire.lean ====
section
/-! SUPPORT. The wire word and the packed request as their fields: assembling and reading are inverse to each other. -/

namespace Sys2Proof

section Assembly

variable (m : BitVec 3) (p : Bool) (f : BitVec 2) (sl : Bool) (t : BitVec 4) (u : Bool) (x : Ignored)

/-- Which field holds each bit of an assembled word (30_encoding.md R44). -/
theorem getLsbD_wireWord (i : Nat) :
    (wireWord m p f sl t u x).getLsbD i =
      if i < 4 then x.bits3to0.getLsbD i
      else if i < 5 then u
      else if i < 20 then x.bits19to5.getLsbD (i - 5)
      else if i < 24 then t.getLsbD (i - 20)
      else if i < 25 then sl
      else if i < 26 then x.bit25
      else if i < 28 then f.getLsbD (i - 26)
      else if i < 29 then p
      else m.getLsbD (i - 29) := by
  by_cases h : i < 32
  · interval_cases i <;> simp [wireWord]
  · rw [BitVec.getLsbD_of_ge _ _ (by omega), BitVec.getLsbD_of_ge m _ (by omega)]
    simp (disch := omega) only [if_neg]

@[simp] theorem wireMode_wireWord : wireMode (wireWord m p f sl t u x) = m := by
  apply BitVec.eq_of_getLsbD_eq
  intro i hi
  interval_cases i <;> simp [wireMode, wireWord]

@[simp] theorem wirePower_wireWord : wirePower (wireWord m p f sl t u x) = p := by simp [wirePower, wireWord]

@[simp] theorem wireFan_wireWord : wireFan (wireWord m p f sl t u x) = f := by
  apply BitVec.eq_of_getLsbD_eq
  intro i hi
  interval_cases i <;> simp [wireFan, wireWord]

@[simp] theorem wireSleep_wireWord : wireSleep (wireWord m p f sl t u x) = sl := by simp [wireSleep, wireWord]

@[simp] theorem wireTemp_wireWord : wireTemp (wireWord m p f sl t u x) = t := by
  apply BitVec.eq_of_getLsbD_eq
  intro i hi
  interval_cases i <;> simp [wireTemp, wireWord]

@[simp] theorem wireUnit_wireWord : wireUnit (wireWord m p f sl t u x) = u := by simp [wireUnit, wireWord]

@[simp] theorem wireIgnored_wireWord : wireIgnored (wireWord m p f sl t u x) = x := by
  obtain ⟨a, b, c⟩ := x
  simp only [wireIgnored, Ignored.mk.injEq]
  refine ⟨by simp [wireWord], ?_, ?_⟩
  all_goals
    apply BitVec.eq_of_getLsbD_eq
    intro i hi
    interval_cases i <;> simp [wireWord]

end Assembly

/-- Every word is the assembly of its own fields. -/
theorem wireWord_fields (w : Word) :
    wireWord (wireMode w) (wirePower w) (wireFan w) (wireSleep w) (wireTemp w) (wireUnit w) (wireIgnored w) = w := by
  apply BitVec.eq_of_getLsbD_eq
  intro i hi
  interval_cases i <;>
    simp [wireWord, wireMode, wirePower, wireFan, wireSleep, wireTemp, wireUnit, wireIgnored]

@[simp] theorem unpackCmd_packCmd (c : CmdPort) : unpackCmd (packCmd c) = c := by
  obtain ⟨p, m, f, sl, t, u⟩ := c
  simp only [unpackCmd, CmdPort.mk.injEq]
  refine ⟨by simp [packCmd], ?_, ?_, by simp [packCmd], ?_, by simp [packCmd]⟩
  all_goals
    apply BitVec.eq_of_getLsbD_eq
    intro i hi
    interval_cases i <;> simp [packCmd]

@[simp] theorem unpackRequest_packRequest (r : Request) : unpackRequest (packRequest r) = r := by
  obtain ⟨op, w, c⟩ := r
  have hc : (packRequest ⟨op, w, c⟩).extractLsb' 34 22 = packCmd c := by
    apply BitVec.eq_of_getLsbD_eq
    intro i hi
    interval_cases i <;> simp [packRequest]
  simp only [unpackRequest, hc, unpackCmd_packCmd, Request.mk.injEq, and_true]
  constructor
  all_goals
    apply BitVec.eq_of_getLsbD_eq
    intro i hi
    interval_cases i <;> simp [packRequest]

end Sys2Proof
end

