-- ==== Sys2Proof/Laws/PerInstr.lean ====
section
/-! SUPPORT. The family `RowPattern`: an instruction's bits have its row's length and carry its row's fixed bits
(spec/opcode_table.json: match and mask). One lemma per constructor of `Instr`. -/

namespace Sys2Proof.Laws

/-- A request's low two bits are its select. -/
theorem packRequest_and_three (r : Request) : (packRequest r).toNat &&& 3 = r.op.toNat := by
  have h : (packRequest r &&& 3) = r.op.setWidth 56 := by
    apply BitVec.eq_of_getLsbD_eq
    intro i hi
    interval_cases i <;> simp [packRequest]
  have := congrArg BitVec.toNat h
  simpa [BitVec.toNat_and, Nat.mod_eq_of_lt (show r.op.toNat < 72057594037927936 by omega)] using this

theorem fixedBits_of_select (r : Request) (k : Nat) (h : r.op.toNat = k) :
    (packRequest r).toNat < 2 ^ 56 ∧ (packRequest r).toNat &&& 3 = k :=
  ⟨(packRequest r).isLt, (packRequest_and_three r).trans h⟩

/-- A word that agrees with the row's match on the row's mask, as numbers. -/
theorem fixedBits_of_mask (w : Word) (mask pattern : Nat) (hm : mask < 2 ^ 32) (hp : pattern < 2 ^ 32)
    (h : w &&& BitVec.ofNat 32 mask = BitVec.ofNat 32 pattern) : w.toNat < 2 ^ 32 ∧ w.toNat &&& mask = pattern := by
  refine ⟨w.isLt, ?_⟩
  have := congrArg BitVec.toNat h
  rwa [BitVec.toNat_and, BitVec.toNat_ofNat, BitVec.toNat_ofNat, Nat.mod_eq_of_lt hm, Nat.mod_eq_of_lt hp] at this

/-- The fixed bits of the rows that `ENCODE`'s words match (30_encoding.md R45: `CONST_MASK`, `BASE`). -/
theorem constBits (m : BitVec 3) (p : Bool) (f : BitVec 2) (sl : Bool) (t : BitVec 4) (u : Bool) :
    wireWord m p f sl t u baseIgnored &&& 0x020FFFEF#32 = 0x00000602#32 := by
  apply BitVec.eq_of_getLsbD_eq
  intro i hi
  interval_cases i <;> simp [wireWord, baseIgnored]

/-- The mode bits of a word. -/
theorem modeBits (m : BitVec 3) (p : Bool) (f : BitVec 2) (sl : Bool) (t : BitVec 4) (u : Bool) (x : Ignored) :
    wireWord m p f sl t u x &&& 0xE0000000#32 = m.setWidth 32 <<< 29 := by
  apply BitVec.eq_of_getLsbD_eq
  intro i hi
  interval_cases i <;> simp [wireWord]

/-- The mode bits and the constant bits together. -/
theorem modeConstBits (m : BitVec 3) (p : Bool) (f : BitVec 2) (sl : Bool) (t : BitVec 4) (u : Bool) :
    wireWord m p f sl t u baseIgnored &&& 0xE20FFFEF#32 = m.setWidth 32 <<< 29 ||| 0x00000602#32 := by
  apply BitVec.eq_of_getLsbD_eq
  intro i hi
  interval_cases i <;> simp [wireWord, baseIgnored]

end Sys2Proof.Laws

namespace Sys2Proof.Laws.RowPattern

/-- The bits of the instruction fit its row's length, and under the row's mask they are the row's match. -/
def Statement (i : Instr) : Prop :=
  (encodeInstr i).nbits = (rowOf i).nbits ∧ (encodeInstr i).bits < 2 ^ (rowOf i).nbits ∧
    (encodeInstr i).bits &&& (rowOf i).mask = (rowOf i).pattern

theorem rev8 (w : Word) : Statement (.rev8 w) := ⟨rfl, fixedBits_of_select _ 0 rfl⟩

theorem encode (c : CmdPort) : Statement (.encode c) := ⟨rfl, fixedBits_of_select _ 1 rfl⟩

theorem decode (w : Word) : Statement (.decode w) := ⟨rfl, fixedBits_of_select _ 2 rfl⟩

theorem reservedOp3 : Statement .reservedOp3 := ⟨rfl, fixedBits_of_select _ 3 rfl⟩

theorem command (m : BitVec 3) (p : Bool) (f : BitVec 2) (sl : Bool) (t : BitVec 4) (u : Bool) :
    Statement (.command m p f sl t u) :=
  ⟨rfl, fixedBits_of_mask _ 0x020FFFEF 0x602 (by decide) (by decide) (constBits m p f sl t u)⟩

theorem commandModeAuto (p : Bool) (f : BitVec 2) (sl : Bool) (t : BitVec 4) (u : Bool) :
    Statement (.commandModeAuto p f sl t u) :=
  ⟨rfl, fixedBits_of_mask _ 0xE20FFFEF 0x602 (by decide) (by decide) (modeConstBits _ p f sl t u)⟩

theorem commandModeHeat (p : Bool) (f : BitVec 2) (sl : Bool) (t : BitVec 4) (u : Bool) :
    Statement (.commandModeHeat p f sl t u) :=
  ⟨rfl, fixedBits_of_mask _ 0xE20FFFEF 0x20000602 (by decide) (by decide) (modeConstBits _ p f sl t u)⟩

theorem commandModeDry (p : Bool) (f : BitVec 2) (sl : Bool) (t : BitVec 4) (u : Bool) :
    Statement (.commandModeDry p f sl t u) :=
  ⟨rfl, fixedBits_of_mask _ 0xE20FFFEF 0x40000602 (by decide) (by decide) (modeConstBits _ p f sl t u)⟩

theorem commandModeCool (p : Bool) (f : BitVec 2) (sl : Bool) (t : BitVec 4) (u : Bool) :
    Statement (.commandModeCool p f sl t u) :=
  ⟨rfl, fixedBits_of_mask _ 0xE20FFFEF 0x80000602 (by decide) (by decide) (modeConstBits _ p f sl t u)⟩

theorem commandModeFan (p : Bool) (f : BitVec 2) (sl : Bool) (t : BitVec 4) (u : Bool) :
    Statement (.commandModeFan p f sl t u) :=
  ⟨rfl, fixedBits_of_mask _ 0xE20FFFEF 0xC0000602 (by decide) (by decide) (modeConstBits _ p f sl t u)⟩

theorem decodeModeUnlisted011 (p : Bool) (f : BitVec 2) (sl : Bool) (t : BitVec 4) (u : Bool) (x : Ignored) :
    Statement (.decodeModeUnlisted011 p f sl t u x) :=
  ⟨rfl, fixedBits_of_mask _ 0xE0000000 0x60000000 (by decide) (by decide) (modeBits _ p f sl t u x)⟩

theorem decodeModeUnlisted101 (p : Bool) (f : BitVec 2) (sl : Bool) (t : BitVec 4) (u : Bool) (x : Ignored) :
    Statement (.decodeModeUnlisted101 p f sl t u x) :=
  ⟨rfl, fixedBits_of_mask _ 0xE0000000 0xA0000000 (by decide) (by decide) (modeBits _ p f sl t u x)⟩

theorem decodeModeUnlisted111 (p : Bool) (f : BitVec 2) (sl : Bool) (t : BitVec 4) (u : Bool) (x : Ignored) :
    Statement (.decodeModeUnlisted111 p f sl t u x) :=
  ⟨rfl, fixedBits_of_mask _ 0xE0000000 0xE0000000 (by decide) (by decide) (modeBits _ p f sl t u x)⟩

theorem decodeAny (m : BitVec 3) (p : Bool) (f : BitVec 2) (sl : Bool) (t : BitVec 4) (u : Bool) (x : Ignored) :
    Statement (.decodeAny m p f sl t u x) :=
  ⟨rfl, fixedBits_of_mask _ 0 0 (by decide) (by decide) (by simp)⟩

theorem commandCelsius (m : BitVec 3) (p : Bool) (f : BitVec 2) (sl : Bool) (t : BitVec 4) :
    Statement (.commandCelsius m p f sl t) := by
  refine ⟨rfl, fixedBits_of_mask _ 0x020FFFFF 0x602 (by decide) (by decide) ?_⟩
  apply BitVec.eq_of_getLsbD_eq
  intro i hi
  interval_cases i <;> simp [wireWord, baseIgnored]

theorem commandFahrenheit (m : BitVec 3) (p : Bool) (f : BitVec 2) (sl : Bool) :
    Statement (.commandFahrenheit m p f sl) := by
  refine ⟨rfl, fixedBits_of_mask _ 0x02FFFFFF 0x612 (by decide) (by decide) ?_⟩
  apply BitVec.eq_of_getLsbD_eq
  intro i hi
  interval_cases i <;> simp [wireWord, baseIgnored]

end Sys2Proof.Laws.RowPattern
end

