-- ==== Sys2Proof/Machine/Run.lean ====
section
/-! DEFINITION. A run is the host's finite list of requests, and its outcome is the list of responses
(70_reset_and_hazards.md R142). Time, arbitration and overlap are left out (safe, log entry 12). -/

namespace Sys2Proof.Machine

/-- Present each request in turn and collect the responses; a refused request ends the run refused. -/
def runRequests : List Request → State → Host.Outcome (State × List PortResponse) Fault Refusal
  | [], s => .next (s, [])
  | r :: rs, s =>
    match step (present s r) with
    | .next t =>
      match runRequests rs t with
      | .next (u, out) => .next (u, responseNow t :: out)
      | .fault e => .fault e
      | .refused e => .refused e
    | .fault e => .fault e
    | .refused e => .refused e

/-- The response to a request as a function of the request alone (20_memory.md R39): what the port drives for each select of
30_encoding.md R51, and nothing for the reserved one. -/
def respond (r : Request) : Option PortResponse :=
  if r.op = 0b00 then some ⟨rev8Word r.wordIn, zeroCmd⟩
  else if r.op = 0b01 then some ⟨encodeCommand hardware (commandOfPort r.cmdIn), zeroCmd⟩
  else if r.op = 0b10 then some ⟨0, portOfCommand (decodeWord hardware r.wordIn)⟩
  else none

end Sys2Proof.Machine
end

