-- ==== Sys2Proof/Machine/Sets.lean ====
section
/-! DEFINITION. The sets of commands and words that the laws of 44_laws.md range over. None adds behaviour. -/

namespace Sys2Proof.Machine

/-- `CanonC` (10_state.md R23): the Celsius commands that survive a round trip. -/
def canonC (c : Command) : Bool :=
  c.unit == .celsius && fanOk c.fanSpeed && tempMin ≤ c.temperature && c.temperature ≤ tempMax

/-- `CanonF` (10_state.md R23): the Fahrenheit commands that survive a round trip. -/
def canonF (c : Command) : Bool := c.unit == .fahrenheit && fanOk c.fanSpeed && c.temperature == 0

/-- The temperature that survives a round trip: clamped in Celsius, 0 in Fahrenheit (44_laws.md R107). -/
def keptTemperature (unit : TempUnit) (temperature : Int) : Int :=
  match unit with
  | .celsius => clamp temperature tempMin tempMax
  | .fahrenheit => 0

/-- `NORM` (44_laws.md R107). -/
def normalForm (c : Command) : Command where
  power := c.power
  mode := c.mode
  fanSpeed := if fanOk c.fanSpeed then c.fanSpeed else 0
  sleep := c.sleep
  temperature := keptTemperature c.unit c.temperature
  unit := c.unit

/-- `Good` (44_laws.md R105): the words whose fields `ENCODE(DECODE(w))` reproduces. -/
def goodWord (w : Word) : Bool :=
  (let m := fext w modeOff modeN
   m == 0b000 || m == 0b001 || m == 0b010 || m == 0b100 || m == 0b110) &&
  (if w.getLsbD unitBit then fext w tempOff tempN == 0b0000 else fext w tempOff tempN != 0b1111)

/-- A word that `ENCODE` produces, told from the word alone (44_laws.md R108). -/
def inEncodeImage (w : Word) : Bool := w &&& constMask == base && goodWord w

def bools : List Bool := [false, true]

def modes : List Mode := [.auto, .cool, .dry, .fan, .heat]

/-- The integers `lo, lo + 1, …`, `n` of them. -/
def intsFrom (lo : Int) (n : Nat) : List Int := (List.range n).map fun k => lo + (k : Int)

/-- Every command with the given unit, a fan speed 0 to 3 and a temperature of the given list. -/
def commandsWith (unit : TempUnit) (temperatures : List Int) : List Command :=
  bools.flatMap fun power => modes.flatMap fun mode => (intsFrom 0 4).flatMap fun fan => bools.flatMap fun sleep =>
    temperatures.map fun temperature => ⟨power, mode, fan, sleep, temperature, unit⟩

/-- `CanonC`, listed (10_state.md R23: 1200 members). -/
def canonCList : List Command := commandsWith .celsius (intsFrom 16 15)

/-- `CanonF`, listed (10_state.md R23: 80 members). -/
def canonFList : List Command := commandsWith .fahrenheit [0]

/-- The results of `DECODE`, listed (43_decode.md R96: 2560 members). -/
def decodeResults : List Command := commandsWith .celsius (intsFrom 16 16) ++ commandsWith .fahrenheit (intsFrom 0 16)

end Sys2Proof.Machine
end

