-- ==== Sys2Proof/Safety.lean ====
section
/-! DEFINITION. What the claims call a legal port, and the silent normalisations of 60_exceptions.md R117, which a careful
caller avoids (70_reset_and_hazards.md R140). -/

namespace Sys2Proof

open Machine

/-- `cmd_out` in the ranges of 30_encoding.md R52 and 43_decode.md R97: mode 0 to 4, fan speed 0 to 3, temperature 0 to 31,
and 0 to 15 under Fahrenheit (43_decode.md R96). -/
abbrev LegalCmdOut (c : CmdPort) : Prop :=
  c.mode.toNat ≤ 4 ∧ c.fanSpeed.toNat ≤ 3 ∧ c.temperature.toNat ≤ 31 ∧ (c.unit = true → c.temperature.toNat ≤ 15)

/-- `word_out` is zero, a byte (40_bitrev.md R62) or a word with the constant bits of 42_encode.md R88. -/
abbrev LegalWordOut (w : Word) : Prop := w.toNat < 256 ∨ w &&& constMask = base

/-- The invariant of the outputs: each in its range, and at most one of them not zero (30_encoding.md R56). -/
abbrev LegalOutputs (s : State) : Prop :=
  LegalCmdOut s.cmdOut ∧ LegalWordOut s.wordOut ∧ (s.wordOut = 0 ∨ s.cmdOut = zeroCmd)

/-- The silent normalisations, by the ids of 60_exceptions.md R117. -/
inductive SilentNorm
  | sn1 | sn2 | sn3 | sn4 | sn5 | sn6 | sn7 | sn8 | sn9 | sn10
deriving DecidableEq, Repr

/-- The operation and the condition of each row of 60_exceptions.md R117, on a request at the port. -/
def silentNormApplies (n : SilentNorm) (r : Request) : Bool :=
  match n with
  | .sn1 => r.op == 0b01 && !r.cmdIn.unit && decide (r.cmdIn.temperature.toNat < 16)
  | .sn2 => r.op == 0b01 && !r.cmdIn.unit && decide (30 < r.cmdIn.temperature.toNat)
  | .sn3 => r.op == 0b01 && r.cmdIn.unit
  | .sn4 => r.op == 0b01 && decide (3 < r.cmdIn.fanSpeed.toNat)
  | .sn5 => r.op == 0b10 && !listedMode (wireMode r.wordIn)
  | .sn6 => r.op == 0b10 && wireIgnored r.wordIn != baseIgnored
  | .sn7 => r.op == 0b10 && !wireUnit r.wordIn && wireTemp r.wordIn == 0b1111
  | .sn8 => r.op == 0b10 && wireUnit r.wordIn
  | .sn9 => r.op == 0b00 && decide (256 ≤ r.wordIn.toNat)
  | .sn10 => r.op == 0b01 && decide (5 ≤ r.cmdIn.mode.toNat)

/-- No row of 60_exceptions.md R117 applies to the request. -/
abbrev NothingNormalised (r : Request) : Prop := ∀ n : SilentNorm, silentNormApplies n r = false

end Sys2Proof
end

