-- ==== Sys2Proof/Certificates/Slice0/Obligations.lean ====
section
/-! DEFINITION. The statements about this machine, for the provers. Each docstring names the rule of spec/ it formalises.
`hardware` is this hardware's configuration (00_scope.md R9); a statement over every `cfg` holds for all four settings. -/

open Sys2Proof Sys2Proof.Machine

/-! ## The bit reversal, 40_bitrev.md -/

/-- R64, and R60 but for the clause that it marks as derived (in `Rev8Laws`). The transaction, the contract bit by bit, the
same as a sum, the four values that the document states. `cmd_out` zero is 30_encoding.md R56; that the inputs stay is the
model's choice (log entry 8). -/
def Obligations.Rev8ReversesTheByte : Prop :=
  (∀ (w : Word) (s : State),
    exec (.rev8 w) s = .next { s with wordOut := (rev8 (w.extractLsb' 0 8)).setWidth 32, cmdOut := zeroCmd }) ∧
  (∀ (x : Byte) (i : Nat), i < 8 → (rev8 x).getLsbD i = x.getLsbD (7 - i)) ∧
  (∀ x : Byte, (rev8 x).toNat = ((List.range 8).map fun i => (x.getLsbD i).toNat * 2 ^ (7 - i)).sum) ∧
  rev8 0x00 = 0x00 ∧ rev8 0xFF = 0xFF ∧ rev8 0x01 = 0x80 ∧ rev8 0x0F = 0xF0

/-- R61 (an inference that the spec marks as derived). The three swap steps, in any order, meet the contract. -/
def Obligations.SwapStepsInAnyOrderReverse : Prop :=
  (∀ x : Byte, rev8Swap x = rev8 x) ∧
  (∀ steps : List (Byte → Byte), steps.Perm [swapBits, swapPairs, swapNibbles] →
    ∀ x : Byte, steps.foldl (fun y step => step y) x = rev8 x)

/-- R62. Bits above bit 7 of the operand are ignored and the result's are zero; the operand that the codec itself gives to
`REV8` is below 256 already (here: `REV4` and `REV2` of a zero-extended field). -/
def Obligations.Rev8IgnoresBitsAboveSeven : Prop :=
  (∀ (v : Word) (s : State), exec (.rev8 v) s = exec (.rev8 (v &&& 0xFF)) s) ∧
  (∀ (v : Word) (s : State), ∃ t, exec (.rev8 v) s = .next t ∧ t.wordOut.extractLsb' 8 24 = 0 ∧
    (∀ i, i < 8 → t.wordOut.getLsbD i = v.getLsbD (7 - i))) ∧
  (∀ s : State, ∃ t, exec (.rev8 0xFFFFFF01) s = .next t ∧ t.wordOut = 0x00000080) ∧
  (∀ v : BitVec 4, rev8Word (v.setWidth 32) = (rev4 v).setWidth 32 <<< 4) ∧
  (∀ v : BitVec 2, rev8Word (v.setWidth 32) = (rev2 v).setWidth 32 <<< 6)

/-- R63, with the sixteen inputs of R60 that are their own result (clauses that the spec marks as derived). Involution,
bijection, bitwise, number of set bits, exchange of shifts. -/
def Obligations.Rev8Laws : Prop :=
  (∀ x, rev8 (rev8 x) = x) ∧
  Function.Bijective rev8 ∧
  (∀ x : Byte, rev8 x = x ↔ x.toNat ∈ [0x00, 0x18, 0x24, 0x3C, 0x42, 0x5A, 0x66, 0x7E, 0x81, 0x99, 0xA5, 0xBD, 0xC3, 0xDB,
    0xE7, 0xFF]) ∧
  (∀ a b, rev8 (a ||| b) = rev8 a ||| rev8 b) ∧ (∀ a b, rev8 (a &&& b) = rev8 a &&& rev8 b) ∧ (∀ a, rev8 (~~~a) = ~~~rev8 a) ∧
  (∀ x, (List.range 8).countP (fun i => (rev8 x).getLsbD i) = (List.range 8).countP (fun i => x.getLsbD i)) ∧
  (∀ (k : Nat) (v : Byte), k ≤ 8 → v.toNat < 2 ^ k → rev8 v = (v.setWidth k).reverse.setWidth 8 <<< (8 - k))

/-! ## The field-packing engine, 41_fieldpack.md -/

/-- R72, R73. The narrow reversals, built on `REV8`: involutions with the stated values and fixed points. -/
def Obligations.NarrowReversals : Prop :=
  (∀ v : BitVec 4, rev4 v = (rev8 (v.setWidth 8)).extractLsb' 4 4 ∧ (rev8 (v.setWidth 8)).extractLsb' 0 4 = 0 ∧
    (∀ i, i < 4 → (rev4 v).getLsbD i = v.getLsbD (3 - i)) ∧ rev4 (rev4 v) = v ∧
    (rev4 v = v ↔ v.toNat ∈ [0, 6, 9, 15])) ∧
  (∀ v : BitVec 2, rev2 v = (rev8 (v.setWidth 8)).extractLsb' 6 2 ∧ (∀ i, i < 2 → (rev2 v).getLsbD i = v.getLsbD (1 - i)) ∧
    rev2 (rev2 v) = v) ∧
  (rev2 0 = 0 ∧ rev2 1 = 2 ∧ rev2 2 = 1 ∧ rev2 3 = 3) ∧ rev4 8 = 1

/-- R67. Extraction is the bits of the field, and no bit outside it has an effect. -/
def Obligations.ExtractReadsTheFieldAlone : Prop :=
  (∀ (w : Word) (off n : Nat), 1 ≤ n → off + n ≤ 32 →
    (fext w off n).toNat = (w.toNat / 2 ^ off) % 2 ^ n ∧ fext w off n = w.extractLsb' off n) ∧
  (∀ (w v : Word) (off n : Nat), 1 ≤ n → off + n ≤ 32 →
    (∀ i, off ≤ i → i < off + n → w.getLsbD i = v.getLsbD i) → fext w off n = fext v off n) ∧
  fext 0x98100602 20 4 = 0x1

/-- R68. Insertion ORs the value's low bits into the field, and clears and changes nothing else; inserting 0 leaves the
word. -/
def Obligations.InsertOrsIntoTheField : Prop :=
  (∀ (w v : Word) (off n i : Nat), 1 ≤ n → off + n ≤ 32 →
    (fins w off n v).getLsbD i = (w.getLsbD i || (decide (off ≤ i ∧ i < off + n) && v.getLsbD (i - off)))) ∧
  (∀ (w : Word) (off n : Nat), fins w off n 0 = w) ∧
  fins 0x00000602 26 2 2 = 0x08000602

/-- R69. A conditional bit set is a one-bit insertion; it never clears a bit. -/
def Obligations.BitSetIsOneBitInsert : Prop :=
  (∀ (w : Word) (i : Nat) (b : Bool), i < 32 → bset w i b = fins w i 1 ((BitVec.ofBool b).setWidth 32)) ∧
  (∀ (w : Word) (i : Nat) (b : Bool), i < 32 → ∀ j, (bset w i b).getLsbD j = (w.getLsbD j || (b && decide (j = i)))) ∧
  (∀ (w : Word) (i : Nat), bset w i false = w) ∧
  bset 0x00000602 28 true = 0x10000602

/-- R70 (its last corner case, idempotent and monotone, is marked as derived). The clamp: into the range, the identity inside
it, idempotent, monotone, with the stated corner values. -/
def Obligations.ClampForcesIntoTheRange : Prop :=
  (∀ v lo hi : Int, lo ≤ hi → lo ≤ clamp v lo hi ∧ clamp v lo hi ≤ hi ∧ (v < lo → clamp v lo hi = lo) ∧
    (hi < v → clamp v lo hi = hi) ∧ (lo ≤ v → v ≤ hi → clamp v lo hi = v) ∧
    clamp (clamp v lo hi) lo hi = clamp v lo hi) ∧
  (∀ v v' lo hi : Int, lo ≤ hi → v ≤ v' → clamp v lo hi ≤ clamp v' lo hi) ∧
  [clamp 16 16 30, clamp 30 16 30, clamp 15 16 30, clamp 31 16 30, clamp 0 16 30, clamp 255 16 30, clamp (-1) 16 30,
    clamp 40 16 30] = [16, 30, 16, 30, 16, 30, 16, 30]

/-- R71. The offset is applied in Celsius only, in both directions: step 2 of `ENCODE` inserts the reversed magnitude in
Celsius and leaves the word alone in Fahrenheit, `DECODE` adds 16 in Celsius only. Magnitude 15 is reachable on decode
only. -/
def Obligations.TemperatureOffsetInCelsiusOnly : Prop :=
  (∀ v : Int, 0 ≤ celsiusMagnitude v ∧ celsiusMagnitude v ≤ 14 ∧ celsiusMagnitude v = clamp v 16 30 - 16) ∧
  (∀ t : BitVec 4, temperatureOf .celsius t = (t.toNat : Int) + 16 ∧ 16 ≤ temperatureOf .celsius t ∧
    temperatureOf .celsius t ≤ 31 ∧ temperatureOf .fahrenheit t = (t.toNat : Int)) ∧
  (∀ (c : Command) (w : Word), c.unit = .celsius →
    stepTemp c w = fins w 20 4 ((rev4 (BitVec.ofInt 4 (clamp c.temperature 16 30 - 16))).setWidth 32)) ∧
  (∀ (c : Command) (w : Word), c.unit = .fahrenheit → stepTemp c w = w) ∧
  (∀ (cfg : Config) (w : Word), (decodeWord cfg w).temperature =
    ((rev4 (w.extractLsb' 20 4)).toNat : Int) + (if (decodeWord cfg w).unit = .celsius then 16 else 0)) ∧
  (∃ w : Word, rev4 (fext w 20 4) = 15) ∧
  celsiusMagnitude 24 = 8 ∧ temperatureOf .celsius 8 = 24

/-- R74, R75 (how `MODE_ENC` undoes `MODE_DEC` is marked as derived). The two mode tables and how they undo each other; a
port code 5, 6 or 7 is written as pattern 0. -/
def Obligations.ModeTables : Prop :=
  [Mode.auto, .heat, .dry, .cool, .fan].map modeEnc = [0b000, 0b001, 0b010, 0b100, 0b110] ∧
  [0b000, 0b001, 0b010, 0b011, 0b100, 0b101, 0b110, 0b111].map modeDec =
    [.auto, .heat, .dry, .auto, .cool, .auto, .fan, .auto] ∧
  Function.Injective modeEnc ∧ (∀ m, modeDec (modeEnc m) = m) ∧
  (∀ p : BitVec 3, modeEnc (modeDec p) = if p = 3 ∨ p = 5 ∨ p = 7 then 0 else p) ∧
  (∀ c : CmdPort, 5 ≤ c.mode.toNat → modeEnc (commandOfPort c).mode = 0)

/-- R76. The fan guard, on any integer and on the port's byte. -/
def Obligations.FanGuard : Prop :=
  (∀ f : Int, fanOk f = decide (0 ≤ f ∧ f ≤ 3)) ∧
  (∀ c : CmdPort, fanOk (commandOfPort c).fanSpeed = decide (c.fanSpeed.extractLsb' 2 6 = 0)) ∧
  [fanOk 3, fanOk 4, fanOk 255, fanOk (-1)] = [true, false, false, false] ∧
  (∀ (cfg : Config) (c : Command), fext (encodeCommand cfg { c with fanSpeed := 4 }) 26 2 = 0 ∧
    fext (encodeCommand cfg { c with fanSpeed := 5 }) 26 2 = 0 ∧ fext (encodeCommand cfg { c with fanSpeed := 7 }) 26 2 = 0)

/-- R45 (marked as derived from R44). The masks: pairwise disjoint fields, disjoint from the base constant; their union,
and the bits outside them. -/
def Obligations.MasksOfTheWireWord : Prop :=
  [modeMask, powerMask, fanMask, sleepMask, tempMask, unitMask, base].Pairwise (fun a b => a &&& b = 0) ∧
  modeMask ||| powerMask ||| fanMask ||| sleepMask ||| tempMask ||| unitMask = fieldMask ∧
  constMask = base ||| zeroMask ∧ constMask = ~~~fieldMask ∧
  [modeMask, powerMask, fanMask, sleepMask, tempMask, unitMask, fieldMask, base, zeroMask, constMask] =
    [0xE0000000, 0x10000000, 0x0C000000, 0x01000000, 0x00F00000, 0x00000010, 0xFDF00010, 0x00000602, 0x020FF9ED, 0x020FFFEF]

/-- R77 (a), (c), (d), marked as derived, for any two disjoint fields of the word. -/
def Obligations.DisjointInsertionsAreIndependent : Prop :=
  ∀ (w v v' : Word) (off n off' n' : Nat), 1 ≤ n → off + n ≤ 32 → 1 ≤ n' → off' + n' ≤ 32 →
    fins (fins w off n v) off' n' v' = fins (fins w off' n' v') off n v ∧
    (off + n ≤ off' ∨ off' + n' ≤ off → fext (fins w off n v) off' n' = fext w off' n') ∧
    (fext w off n = 0 → fext (fins w off n v) off n = v.setWidth n)

/-! ## ENCODE, 42_encode.md -/

/-- R80. The transaction at the port, and `ENCODE` as one expression (`fanOrder false f` is `f`, the default).
That `cmd_out` is zero is 30_encoding.md R56; that the inputs stay is the model's choice (log entry 8). -/
def Obligations.EncodeIsTheOrOfItsFields : Prop :=
  (∀ (c : CmdPort) (s : State), exec (.encode c) s =
    .next { s with wordOut := encodeCommand hardware (commandOfPort c), cmdOut := zeroCmd }) ∧
  (∀ (cfg : Config) (c : Command), encodeCommand cfg c =
    0x602 ||| ((modeEnc c.mode).setWidth 32 <<< 29) ||| (if c.power then 1 <<< 28 else 0) |||
      (if 0 ≤ c.fanSpeed ∧ c.fanSpeed ≤ 3 then (fanOrder cfg.encFanRev (BitVec.ofInt 2 c.fanSpeed)).setWidth 32 <<< 26 else 0) |||
      (if c.sleep then 1 <<< 24 else 0) |||
      (if c.unit = .celsius then (rev4 (BitVec.ofInt 4 (clamp c.temperature 16 30 - 16))).setWidth 32 <<< 20 else 0) |||
      (if c.unit = .fahrenheit then 1 <<< 4 else 0)) ∧
  (∀ f : BitVec 2, fanOrder hardware.encFanRev f = f) ∧
  encodeCommand hardware ⟨true, .cool, 2, false, 24, .celsius⟩ = 0x98100602

/-- R44's column "ENCODE writes" with R46, R47, R48, R53 and R55, bit by bit at the port, without the engine: every bit of
`word_out`, the zero of `cmd_out` (R56), and the frame: that the inputs stay is the model's choice (log entry 8). -/
def Obligations.EncodeDrivesTheWireLayout : Prop :=
  ∀ (c : CmdPort) (s : State), ∃ t, exec (.encode c) s = .next t ∧
    t.wordOut.extractLsb' 29 3 =
      (if c.mode = 1 then 0b100 else if c.mode = 2 then 0b010 else if c.mode = 3 then 0b110
       else if c.mode = 4 then 0b001 else 0b000) ∧
    t.wordOut.getLsbD 28 = c.power ∧
    t.wordOut.extractLsb' 26 2 = (if c.fanSpeed.toNat ≤ 3 then c.fanSpeed.setWidth 2 else 0) ∧
    t.wordOut.getLsbD 25 = false ∧
    t.wordOut.getLsbD 24 = c.sleep ∧
    (∀ k, k < 4 → t.wordOut.getLsbD (20 + k) =
      (!c.unit && (min (max c.temperature.toNat 16) 30 - 16).testBit (3 - k))) ∧
    t.wordOut.extractLsb' 11 9 = 0 ∧
    t.wordOut.extractLsb' 9 2 = 0b11 ∧
    t.wordOut.extractLsb' 5 4 = 0 ∧
    t.wordOut.getLsbD 4 = c.unit ∧
    t.wordOut.extractLsb' 0 4 = 0b0010 ∧
    t.cmdOut = zeroCmd ∧ t.format = s.format ∧ t.op = s.op ∧ t.wordIn = s.wordIn ∧ t.cmdIn = s.cmdIn

/-- R83. A Fahrenheit temperature is not read: bits 23:20 stay 0000 and bit 4 is set. -/
def Obligations.FahrenheitTemperatureIsNotWritten : Prop :=
  (∀ (cfg : Config) (c : Command) (temperature : Int), c.unit = .fahrenheit →
    encodeCommand cfg c = encodeCommand cfg { c with temperature := temperature } ∧
    (encodeCommand cfg c).extractLsb' 20 4 = 0 ∧ (encodeCommand cfg c).getLsbD 4 = true) ∧
  (∀ temperature : Int, encodeCommand hardware ⟨true, .cool, 2, false, temperature, .fahrenheit⟩ = 0x98000612)

/-- R101. A Celsius temperature outside 16 to 30 gives the word of the nearer bound, field 0000 or 0111. -/
def Obligations.CelsiusTemperatureIsClamped : Prop :=
  (∀ (cfg : Config) (c : Command), c.unit = .celsius → c.temperature < 16 →
    (encodeCommand cfg c).extractLsb' 20 4 = 0b0000 ∧ encodeCommand cfg c = encodeCommand cfg { c with temperature := 16 }) ∧
  (∀ (cfg : Config) (c : Command), c.unit = .celsius → 30 < c.temperature →
    (encodeCommand cfg c).extractLsb' 20 4 = 0b0111 ∧ encodeCommand cfg c = encodeCommand cfg { c with temperature := 30 })

/-- R104. A fan speed outside 0 to 3 leaves the field 00 and gives the word of fan speed 0. -/
def Obligations.FanOutOfRangeIsDropped : Prop :=
  ∀ (cfg : Config) (c : Command), ¬(0 ≤ c.fanSpeed ∧ c.fanSpeed ≤ 3) →
    (encodeCommand cfg c).extractLsb' 26 2 = 0b00 ∧ encodeCommand cfg c = encodeCommand cfg { c with fanSpeed := 0 }

/-- R87 (an inference that the spec marks as derived). The six steps in any order give the same word; the rows of its table
that neither R101 nor R104 states; two commands encode to the same word exactly when they agree after the normalisations. -/
def Obligations.EncodeStepsInAnyOrder : Prop :=
  (∀ (cfg : Config) (c : Command) (steps : List (Word → Word)), steps.Perm (encodeSteps cfg c) →
    steps.foldl (fun w step => step w) 0x602 = encodeCommand cfg c) ∧
  (∀ (cfg : Config) (c : Command), c.unit = .fahrenheit →
    (encodeCommand cfg c).extractLsb' 20 4 = 0b0000 ∧ encodeCommand cfg c = encodeCommand cfg { c with temperature := 0 }) ∧
  (∀ (c : CmdPort) (s : State), 5 ≤ c.mode.toNat → exec (.encode c) s = exec (.encode { c with mode := 0 }) s ∧
    (encodeCommand hardware (commandOfPort c)).extractLsb' 29 3 = 0b000) ∧
  (∀ (cfg : Config) (c c' : Command), encodeCommand cfg c = encodeCommand cfg c' ↔ normalForm c = normalForm c')

/-- R102, and its stronger form R88 (marked as derived). The constant bits of every result, at every setting of the fan
parameters. -/
def Obligations.EncodeKeepsTheConstantBits : Prop :=
  ∀ (cfg : Config) (c : Command), encodeCommand cfg c &&& 0x602 = 0x602 ∧ encodeCommand cfg c &&& 0x020FFFEF = 0x00000602

/-! ## DECODE, 43_decode.md -/

/-- R95 (marked as derived from R90). `DECODE` reads the bits of `FIELD_MASK` and no others, as a function and as a
transaction; it decodes the words with no bit and with every bit set. -/
def Obligations.DecodeReadsFieldBitsOnly : Prop :=
  (∀ (cfg : Config) (w : Word), decodeWord cfg w = decodeWord cfg (w &&& 0xFDF00010)) ∧
  (∀ (w : Word) (s : State), exec (.decode w) s = exec (.decode (w &&& 0xFDF00010)) s) ∧
  (∀ (cfg : Config) (w v : Word) (i : Nat), i ∈ [25, 19, 18, 17, 16, 15, 14, 13, 12, 11, 10, 9, 8, 7, 6, 5, 3, 2, 1, 0] →
    (∀ j, j ≠ i → w.getLsbD j = v.getLsbD j) → decodeWord cfg w = decodeWord cfg v) ∧
  decodeWord hardware 0x00000000 = ⟨false, .auto, 0, false, 16, .celsius⟩ ∧
  decodeWord hardware 0xFFFFFFFF = ⟨true, .auto, 3, true, 15, .fahrenheit⟩

/-- R96 (its count is marked as derived). The ranges of every result; the distinct results are the 2560 commands of a
list; `DECODE` is not injective. -/
def Obligations.DecodeResultsAreCounted : Prop :=
  (∀ (cfg : Config) (w : Word), 0 ≤ (decodeWord cfg w).fanSpeed ∧ (decodeWord cfg w).fanSpeed ≤ 3 ∧
    ((decodeWord cfg w).unit = .celsius → 16 ≤ (decodeWord cfg w).temperature ∧ (decodeWord cfg w).temperature ≤ 31) ∧
    ((decodeWord cfg w).unit = .fahrenheit → 0 ≤ (decodeWord cfg w).temperature ∧ (decodeWord cfg w).temperature ≤ 15)) ∧
  (∀ (cfg : Config) (c : Command), c ∈ decodeResults ↔ ∃ w, decodeWord cfg w = c) ∧
  decodeResults.Nodup ∧ decodeResults.length = 2560 ∧
  ¬ Function.Injective (decodeWord hardware)

/-- R97. `cmd_out` signal by signal from the bits of the operand, `word_out` zero (R56). That the inputs stay is the model's
choice (log entry 8). -/
def Obligations.DecodeDrivesTheCommand : Prop :=
  ∀ (w : Word) (s : State), ∃ t, exec (.decode w) s = .next t ∧
    t.cmdOut.mode =
      (if w.extractLsb' 29 3 = 0b001 then 4 else if w.extractLsb' 29 3 = 0b010 then 2
       else if w.extractLsb' 29 3 = 0b100 then 1 else if w.extractLsb' 29 3 = 0b110 then 3 else 0) ∧
    t.cmdOut.mode.toNat ≤ 4 ∧
    t.cmdOut.power = w.getLsbD 28 ∧
    t.cmdOut.fanSpeed = (w.extractLsb' 26 2).setWidth 8 ∧ t.cmdOut.fanSpeed.toNat ≤ 3 ∧
    t.cmdOut.sleep = w.getLsbD 24 ∧
    t.cmdOut.temperature.toNat =
      (w.getLsbD 23).toNat + 2 * (w.getLsbD 22).toNat + 4 * (w.getLsbD 21).toNat + 8 * (w.getLsbD 20).toNat +
        (if w.getLsbD 4 then 0 else 16) ∧
    t.cmdOut.temperature.toNat ≤ 31 ∧
    t.cmdOut.unit = w.getLsbD 4 ∧
    t.wordOut = 0 ∧ t.format = s.format ∧ t.op = s.op ∧ t.wordIn = s.wordIn ∧ t.cmdIn = s.cmdIn

/-- R103. The three unlisted mode patterns read as Auto. -/
def Obligations.UnlistedModeReadsAsAuto : Prop :=
  (∀ (cfg : Config) (w : Word), (w.extractLsb' 29 3).toNat ∈ [0b011, 0b101, 0b111] → (decodeWord cfg w).mode = .auto) ∧
  [decodeWord hardware 0x60000000, decodeWord hardware 0xA0000000, decodeWord hardware 0xE0000000].map Command.mode =
    [.auto, .auto, .auto]

/-! ## The rows of format WIRE32 as instructions (log entry 1: each is `DECODE` of the row's word) -/

/-- The five mode rows (R46): `cmd_out.mode` is the row's mode code (R53), the other signals are the row's letters (R97),
the reversed temperature field plus 16 in Celsius (R92); nothing else changes. Two things are the model's choice: that a
row means `DECODE` of its word (log entry 1) and that the inputs stay (log entry 8). -/
def Obligations.ModeRowsDeliverTheirMode : Prop :=
  ∀ (p : Bool) (f : BitVec 2) (sl : Bool) (t : BitVec 4) (u : Bool) (s : State),
    let out (mode : BitVec 3) : State :=
      { s with wordOut := 0, cmdOut := ⟨p, mode, f.setWidth 8, sl, t.reverse.setWidth 8 + (if u then 0 else 16), u⟩ }
    exec (.commandModeAuto p f sl t u) s = .next (out 0) ∧
    exec (.commandModeHeat p f sl t u) s = .next (out 4) ∧
    exec (.commandModeDry p f sl t u) s = .next (out 2) ∧
    exec (.commandModeCool p f sl t u) s = .next (out 1) ∧
    exec (.commandModeFan p f sl t u) s = .next (out 3)

/-- The three unlisted-mode rows (R75, R50): `cmd_out.mode` is Auto's code 0 whatever the ignored bits; nothing else
changes. Two things are the model's choice: that a row means `DECODE` of its word (log entry 1) and that the inputs stay
(log entry 8). -/
def Obligations.UnlistedModeRowsDeliverAuto : Prop :=
  ∀ (p : Bool) (f : BitVec 2) (sl : Bool) (t : BitVec 4) (u : Bool) (x : Ignored) (s : State),
    let out : State :=
      { s with wordOut := 0, cmdOut := ⟨p, 0, f.setWidth 8, sl, t.reverse.setWidth 8 + (if u then 0 else 16), u⟩ }
    exec (.decodeModeUnlisted011 p f sl t u x) s = .next out ∧
    exec (.decodeModeUnlisted101 p f sl t u x) s = .next out ∧
    exec (.decodeModeUnlisted111 p f sl t u x) s = .next out

/-- The rows with a free mode field (R44, R90, R82, R83): `cmd_out.mode` is the code of what `MODE_DEC` reads, for every
value of the field and of the ignored bits; nothing else changes. Two things are the model's choice: that a row means
`DECODE` of its word (log entry 1) and that the inputs stay (log entry 8). -/
def Obligations.GeneralRowsDeliverTheirFields : Prop :=
  ∀ (m : BitVec 3) (p : Bool) (f : BitVec 2) (sl : Bool) (t : BitVec 4) (u : Bool) (x : Ignored) (s : State),
    let mode : BitVec 3 := if m = 0b001 then 4 else if m = 0b010 then 2 else if m = 0b100 then 1 else if m = 0b110 then 3 else 0
    let out (temperature : Byte) (unit : Bool) : State :=
      { s with wordOut := 0, cmdOut := ⟨p, mode, f.setWidth 8, sl, temperature, unit⟩ }
    exec (.command m p f sl t u) s = .next (out (t.reverse.setWidth 8 + (if u then 0 else 16)) u) ∧
    exec (.decodeAny m p f sl t u x) s = .next (out (t.reverse.setWidth 8 + (if u then 0 else 16)) u) ∧
    exec (.commandCelsius m p f sl t) s = .next (out (t.reverse.setWidth 8 + 16) false) ∧
    exec (.commandFahrenheit m p f sl) s = .next (out 0 true)

/-! ## The laws of the codec, 44_laws.md -/

/-- R100. The Celsius round trip, that it holds exactly when the two fan parameters are equal (they are: both false), and
its domain `CanonC` (10_state.md R23), listed without repeats and counted. -/
def Obligations.CelsiusCommandsRoundTrip : Prop :=
  (∀ c : Command, c.unit = .celsius → 0 ≤ c.fanSpeed → c.fanSpeed ≤ 3 → 16 ≤ c.temperature → c.temperature ≤ 30 →
    decodeWord hardware (encodeCommand hardware c) = c) ∧
  (∀ cfg : Config, (∀ c : Command, canonC c = true → decodeWord cfg (encodeCommand cfg c) = c) ↔
    cfg.encFanRev = cfg.decFanRev) ∧
  canonCList.Nodup ∧ canonCList.length = 1200 ∧ (∀ c, c ∈ canonCList ↔ canonC c = true)

/-- R107 (marked as derived). Decode after encode is the normal form exactly when the two fan parameters are equal (R110),
with the consequences the rule lists; those that name no decoder hold at all four settings. -/
def Obligations.DecodeAfterEncodeIsTheNormalForm : Prop :=
  (∀ cfg : Config, (∀ c : Command, decodeWord cfg (encodeCommand cfg c) = normalForm c) ↔ cfg.encFanRev = cfg.decFanRev) ∧
  (∀ c, normalForm (normalForm c) = normalForm c) ∧
  (∀ (cfg : Config) (c : Command), encodeCommand cfg (normalForm c) = encodeCommand cfg c) ∧
  (∀ (cfg : Config) (c c' : Command), encodeCommand cfg c = encodeCommand cfg c' ↔ normalForm c = normalForm c') ∧
  (∀ (cfg : Config) (c : Command), cfg.encFanRev = cfg.decFanRev →
    encodeCommand cfg (decodeWord cfg (encodeCommand cfg c)) = encodeCommand cfg c) ∧
  (∀ c, normalForm c = c ↔ canonC c = true ∨ canonF c = true) ∧
  (∀ (cfg : Config) (c : Command), cfg.encFanRev = cfg.decFanRev → roundtrip cfg c = normalForm c)

/-- R105 (marked as derived). Encode after decode reproduces the word's fields exactly on `Good`; what comes back outside
it; which fields come back always; the 1280 good settings of the twelve field bits are those of `ENCODE`'s words; the law
needs equal fan parameters. -/
def Obligations.EncodeAfterDecodeExactlyOnGood : Prop :=
  (∀ w : Word, goodWord w = true ↔ encodeCommand hardware (decodeWord hardware w) = (w &&& 0xFDF00010) ||| 0x00000602) ∧
  (∀ w : Word, (w.extractLsb' 29 3).toNat ∈ [0b011, 0b101, 0b111] →
    (encodeCommand hardware (decodeWord hardware w)).extractLsb' 29 3 = 0b000) ∧
  (∀ w : Word, w.getLsbD 4 = false → w.extractLsb' 20 4 = 0b1111 →
    (encodeCommand hardware (decodeWord hardware w)).extractLsb' 20 4 = 0b0111) ∧
  (∀ w : Word, w.getLsbD 4 = true → (encodeCommand hardware (decodeWord hardware w)).extractLsb' 20 4 = 0b0000) ∧
  (∀ w : Word, encodeCommand hardware (decodeWord hardware w) &&& 0x1D000010 = w &&& 0x1D000010) ∧
  ((canonCList ++ canonFList).map fun c => encodeCommand hardware c &&& fieldMask).Nodup ∧
  ((canonCList ++ canonFList).map fun c => encodeCommand hardware c &&& fieldMask).length = 1280 ∧
  (∀ w : Word, goodWord w = true ↔
    w &&& fieldMask ∈ (canonCList ++ canonFList).map fun c => encodeCommand hardware c &&& fieldMask) ∧
  (∀ cfg : Config, (∀ w : Word, goodWord w = true →
    encodeCommand cfg (decodeWord cfg w) = (w &&& 0xFDF00010) ||| 0x00000602) ↔ cfg.encFanRev = cfg.decFanRev)

/-- R106 (marked as derived). Fahrenheit: everything but the temperature comes back; the round trip holds exactly on
`CanonF` (10_state.md R23), which is listed without repeats and counted. -/
def Obligations.FahrenheitLosesItsTemperature : Prop :=
  (∀ c : Command, c.unit = .fahrenheit →
    (encodeCommand hardware c).extractLsb' 20 4 = 0b0000 ∧ (encodeCommand hardware c).getLsbD 4 = true ∧
    (let d := decodeWord hardware (encodeCommand hardware c)
     d.power = c.power ∧ d.mode = c.mode ∧ d.sleep = c.sleep ∧ d.unit = c.unit ∧ d.temperature = 0 ∧
     (0 ≤ c.fanSpeed → c.fanSpeed ≤ 3 → d.fanSpeed = c.fanSpeed) ∧
     (d = c ↔ canonF c = true))) ∧
  canonFList.Nodup ∧ canonFList.length = 80 ∧ (∀ c, c ∈ canonFList ↔ canonF c = true)

/-- R108 (marked as derived). The image of `ENCODE`, at all four fan settings: 1280 words, 1200 with bit 4 clear and 80 with
bit 4 set, told from the word alone, each the word of one canonical command. `DECODE` is the inverse on the canonical
commands exactly when the two fan parameters are equal (R110). -/
def Obligations.EncodeImageIsExact : Prop :=
  (∀ (cfg : Config) (w : Word), (∃ c, encodeCommand cfg c = w) ↔ w &&& 0x020FFFEF = 0x602 ∧ goodWord w = true) ∧
  (∀ (cfg : Config) (w : Word), (∃ c, encodeCommand cfg c = w) ↔ w ∈ (canonCList ++ canonFList).map (encodeCommand cfg)) ∧
  (∀ cfg : Config, ((canonCList ++ canonFList).map (encodeCommand cfg)).Nodup) ∧
  (∀ cfg : Config, (canonCList.map (encodeCommand cfg)).length = 1200 ∧
    ∀ w ∈ canonCList.map (encodeCommand cfg), w.getLsbD 4 = false) ∧
  (∀ cfg : Config, (canonFList.map (encodeCommand cfg)).length = 80 ∧
    ∀ w ∈ canonFList.map (encodeCommand cfg), w.getLsbD 4 = true) ∧
  (∀ cfg : Config, (∀ c, canonC c = true ∨ canonF c = true → decodeWord cfg (encodeCommand cfg c) = c) ↔
    cfg.encFanRev = cfg.decFanRev) ∧
  (∀ (cfg : Config) (c : Command), cfg.encFanRev = cfg.decFanRev →
    (let d := decodeWord cfg (encodeCommand cfg c); canonC d = true ∨ canonF d = true) ∧
    encodeCommand cfg (decodeWord cfg (encodeCommand cfg c)) = encodeCommand cfg c)

/-- R110 (marked as derived), the mismatched pairs: the fan speed comes back with its two bits exchanged, and nothing else
changes; 600 of the 1200 canonical Celsius commands fail; a re-encoded word differs in bits 27:26 exactly when they are 01
or 10. -/
def Obligations.MismatchedFanParameters : Prop :=
  (∀ (cfg : Config) (c : Command), cfg.encFanRev ≠ cfg.decFanRev →
    decodeWord cfg (encodeCommand cfg c) =
      { normalForm c with fanSpeed := ((rev2 (BitVec.ofInt 2 (normalForm c).fanSpeed)).toNat : Int) }) ∧
  (∀ cfg : Config, cfg.encFanRev ≠ cfg.decFanRev →
    (canonCList.filter fun c => decodeWord cfg (encodeCommand cfg c) != c).length = 600) ∧
  (∀ (cfg : Config) (w : Word), cfg.encFanRev ≠ cfg.decFanRev →
    ((encodeCommand cfg (decodeWord cfg w)).extractLsb' 26 2 ≠ w.extractLsb' 26 2 ↔
      w.extractLsb' 26 2 = 0b01 ∨ w.extractLsb' 26 2 = 0b10)) ∧
  (∀ (cfg cfg' : Config) (c : Command), encodeCommand cfg c &&& ~~~0x0C000000 = encodeCommand cfg' c &&& ~~~0x0C000000) ∧
  (∀ (cfg cfg' : Config) (w : Word),
    { decodeWord cfg w with fanSpeed := 0 } = { decodeWord cfg' w with fanSpeed := 0 })

/-- R111 (marked as derived). Each field of the result depends on its own bits, and each field's bits on that field, but
for the temperature and the unit. -/
def Obligations.FieldsAreIndependent : Prop :=
  (∀ (cfg : Config) (w v : Word),
    (w.getLsbD 28 = v.getLsbD 28 → (decodeWord cfg w).power = (decodeWord cfg v).power) ∧
    (w.extractLsb' 29 3 = v.extractLsb' 29 3 → (decodeWord cfg w).mode = (decodeWord cfg v).mode) ∧
    (w.extractLsb' 26 2 = v.extractLsb' 26 2 → (decodeWord cfg w).fanSpeed = (decodeWord cfg v).fanSpeed) ∧
    (w.getLsbD 24 = v.getLsbD 24 → (decodeWord cfg w).sleep = (decodeWord cfg v).sleep) ∧
    (w.getLsbD 4 = v.getLsbD 4 → (decodeWord cfg w).unit = (decodeWord cfg v).unit) ∧
    (w.extractLsb' 20 4 = v.extractLsb' 20 4 → w.getLsbD 4 = v.getLsbD 4 →
      (decodeWord cfg w).temperature = (decodeWord cfg v).temperature)) ∧
  (∀ (cfg : Config) (c d : Command),
    (c.power = d.power → (encodeCommand cfg c).getLsbD 28 = (encodeCommand cfg d).getLsbD 28) ∧
    (c.mode = d.mode → (encodeCommand cfg c).extractLsb' 29 3 = (encodeCommand cfg d).extractLsb' 29 3) ∧
    (c.fanSpeed = d.fanSpeed → (encodeCommand cfg c).extractLsb' 26 2 = (encodeCommand cfg d).extractLsb' 26 2) ∧
    (c.sleep = d.sleep → (encodeCommand cfg c).getLsbD 24 = (encodeCommand cfg d).getLsbD 24) ∧
    (c.unit = d.unit → (encodeCommand cfg c).getLsbD 4 = (encodeCommand cfg d).getLsbD 4) ∧
    (c.temperature = d.temperature → c.unit = d.unit →
      (encodeCommand cfg c).extractLsb' 20 4 = (encodeCommand cfg d).extractLsb' 20 4))

/-- R113. The document's end-to-end example as corrected, the rejected reading, and the value with both fan reversals. -/
def Obligations.EndToEndExample : Prop :=
  let c : Command := ⟨true, .cool, 2, false, 24, .celsius⟩
  encodeCommand hardware c = 0x98100602 ∧
  (0x602 ||| (1 <<< 28) ||| (4 <<< 29) ||| (2 <<< 26) ||| ((rev4 (24 - 16)).setWidth 32 <<< 20) : Word) = 0x98100602 ∧
  decodeWord hardware 0x98100602 = c ∧
  (0x602 ||| (1 <<< 28) ||| (4 <<< 29) ||| (2 <<< 26) ||| ((rev8 (24 - 16)).setWidth 32 <<< 20) : Word) = 0x99000602 ∧
  (decodeWord hardware 0x99000602).sleep = true ∧ (decodeWord hardware 0x99000602).temperature = 16 ∧
  encodeCommand ⟨true, true⟩ c = 0x94100602

/-- 30_encoding.md R59. The pseudo-operations are their expansions: `REV4` and `REV2` over a `REV8` transaction, `ROUNDTRIP`
and `NORMALISE` over two transactions that carry the response of the first to the second at the typed level. -/
def Obligations.PseudoOperationsAreTheirExpansions : Prop :=
  (∀ (v : BitVec 4) (s : State), ∃ t, exec (.rev8 (v.setWidth 32)) s = .next t ∧
    t.wordOut >>> 4 = (rev4 v).setWidth 32 ∧ hostRev4 v = t.wordOut >>> 4) ∧
  (∀ (v : BitVec 2) (s : State), ∃ t, exec (.rev8 (v.setWidth 32)) s = .next t ∧
    t.wordOut >>> 6 = (rev2 v).setWidth 32 ∧ hostRev2 v = t.wordOut >>> 6) ∧
  (∀ (cfg : Config) (c : Command), ∃ w, transact cfg (.encode c) = .word w ∧
    transact cfg (.decode w) = .command (roundtrip cfg c)) ∧
  (∀ (cfg : Config) (w : Word), ∃ c, transact cfg (.decode w) = .command c ∧
    transact cfg (.encode c) = .word (normalise cfg w))

/-! ## The block as a machine: 10_state.md, 20_memory.md, 30_encoding.md, 60_exceptions.md, 70_reset_and_hazards.md -/

/-- 30_encoding.md R54. The reserved select is refused: as an instruction, and as the pending request of any state. -/
def Obligations.ReservedSelectIsRefused : Prop :=
  (∀ s : State, exec .reservedOp3 s = .refused .reservedOperationSelect) ∧
  (∀ s : State, s.op = 0b11 → step s = .refused .reservedOperationSelect)

/-- 60_exceptions.md R130 (marked as derived), R116. A step answers a result for every select but 3, the refusal for 3,
and never a fault. -/
def Obligations.StepAnswersOrRefusesTheReservedSelect : Prop :=
  ∀ s : State, (s.op ≠ 0b11 → ∃ t, step s = .next t) ∧ (s.op = 0b11 → step s = .refused .reservedOperationSelect) ∧
    ∀ e, step s ≠ .fault e

/-- 30_encoding.md R56. What a step drives for each select, whichever format names the pending item: the output an operation
does not produce is zero, and an input the operation does not read has no effect (the last clause). Two clauses are the
model's choice: that the inputs stay (log entry 8), and that a pending wire word under `op` 10 is answered as `DECODE` of
that word (log entries 1 and 5). -/
def Obligations.StepDrivesTheSelectedResult : Prop :=
  (∀ s : State, s.op = 0b00 →
    step s = .next { s with wordOut := (rev8 (s.wordIn.extractLsb' 0 8)).setWidth 32, cmdOut := zeroCmd }) ∧
  (∀ s : State, s.op = 0b01 →
    step s = .next { s with wordOut := encodeCommand hardware (commandOfPort s.cmdIn), cmdOut := zeroCmd }) ∧
  (∀ s : State, s.op = 0b10 →
    step s = .next { s with wordOut := 0, cmdOut := portOfCommand (decodeWord hardware s.wordIn) }) ∧
  (∀ s s' : State, s.op = s'.op →
    (s.op = 0b00 → s.wordIn.extractLsb' 0 8 = s'.wordIn.extractLsb' 0 8) →
    (s.op = 0b01 → s.cmdIn = s'.cmdIn) →
    (s.op = 0b10 → s.wordIn &&& fieldMask = s'.wordIn &&& fieldMask) →
    ∀ t, step s = .next t → ∃ t', step s' = .next t' ∧ responseNow t' = responseNow t)

/-- 10_state.md R26, 44_laws.md R112. The response depends on the request alone: not on earlier outputs, and not on the
model's own `format` field (log entry 5). -/
def Obligations.ResponseDependsOnTheRequestAlone : Prop :=
  ∀ s s' : State, requestNow s = requestNow s' →
    (∃ t t', step s = .next t ∧ step s' = .next t' ∧ responseNow t = responseNow t' ∧
      respond (requestNow s) = some (responseNow t)) ∨
    (respond (requestNow s) = none ∧ step s = .refused .reservedOperationSelect ∧
      step s' = .refused .reservedOperationSelect)

/-- The frame of every instruction: the inputs and the format stay; only the two outputs may change (30_encoding.md R52).
That the inputs stay is the model's choice (log entry 8), and `format` is its own field (log entry 5). -/
def Obligations.NoInstructionChangesTheInputs : Prop :=
  ∀ (i : Instr) (s t : State), exec i s = .next t →
    t.format = s.format ∧ t.op = s.op ∧ t.wordIn = s.wordIn ∧ t.cmdIn = s.cmdIn

/-- The invariant of the outputs (30_encoding.md R52, R56, 43_decode.md R97, 42_encode.md R88): after any step, from any
state whatever, each output is in its range and at most one is not zero. -/
def Obligations.EveryStepLeavesLegalOutputs : Prop :=
  ∀ s t : State, step s = .next t → LegalOutputs t

/-- The invariant holds at reset (the model's choice of zero outputs, log entry 4). -/
def Obligations.ResetOutputsAreLegal : Prop := LegalOutputs State.reset

/-- 20_memory.md R39. Any two transactions commute, and repeating one gives the same response. The third clause, that a
step from a step's result changes nothing, rests on the inputs staying on the port, which is the model's choice (log entry
8). -/
def Obligations.TransactionsCommuteAndRepeat : Prop :=
  (∀ (r r' : Request) (s : State), r.op ≠ 0b11 → r'.op ≠ 0b11 →
    ∃ u u' a b, runRequests [r, r'] s = .next (u, [a, b]) ∧ runRequests [r', r] s = .next (u', [b, a]) ∧
      respond r = some a ∧ respond r' = some b) ∧
  (∀ (r : Request) (s : State), r.op ≠ 0b11 →
    ∃ u a, runRequests [r, r] s = .next (u, [a, a]) ∧ respond r = some a) ∧
  (∀ s t : State, step s = .next t → step t = .next t)

/-- 70_reset_and_hazards.md R142 (marked as derived). The outcome of a run is the list of its responses, each the function
of its own request; a run is refused exactly when it holds the reserved select. -/
def Obligations.RunIsTheListOfItsResponses : Prop :=
  ∀ (rs : List Request) (s : State),
    ((∀ r ∈ rs, r.op ≠ 0b11) →
      ∃ u out, runRequests rs s = .next (u, out) ∧ out.map some = rs.map respond) ∧
    ((∃ r ∈ rs, r.op = 0b11) → runRequests rs s = .refused .reservedOperationSelect)

/-- 42_encode.md R89, 43_decode.md R97, 00_scope.md R16. The port refines the typed level: presenting a typed transaction
whose integers fit the port drives the port form of its typed response. -/
def Obligations.PortRefinesTheTypedLevel : Prop :=
  ∀ (tr : Transaction) (s : State), fitsPort tr = true →
    ∃ t, step (present s (requestOfTransaction tr)) = .next t ∧ responseNow t = portOfResponse (transact hardware tr)

/-- 60_exceptions.md R117, 70_reset_and_hazards.md R140. A request that no silent normalisation applies to loses nothing: the
answer, handed back to the inverse operation, gives the request's operand. -/
def Obligations.NothingNormalisedNothingLost : Prop :=
  (∀ (c : CmdPort) (s : State), NothingNormalised ⟨0b01, 0, c⟩ →
    ∃ t u, exec (.encode c) s = .next t ∧ exec (.decode t.wordOut) t = .next u ∧ u.cmdOut = c) ∧
  (∀ (w : Word) (s : State), NothingNormalised ⟨0b10, w, zeroCmd⟩ →
    ∃ t u, exec (.decode w) s = .next t ∧ exec (.encode t.cmdOut) t = .next u ∧ u.wordOut = w) ∧
  (∀ (x : Word) (s : State), NothingNormalised ⟨0b00, x, zeroCmd⟩ →
    ∃ t u, exec (.rev8 x) s = .next t ∧ exec (.rev8 t.wordOut) t = .next u ∧ u.wordOut = x)

/-- 60_exceptions.md R119 (marked as derived), its example: two normalisations apply at once, each to its own field. -/
def Obligations.TwoNormalisationsAtOnce : Prop :=
  (∀ s : State, ∃ t, exec (.encode ⟨false, 0, 9, false, 99, false⟩) s = .next t ∧ t.wordOut = 0x00700602) ∧
  encodeCommand hardware ⟨false, .auto, 9, false, 99, .celsius⟩ = 0x00700602

/-! ## Decoding of the opcode table -/

/-- A step runs the instruction the pending bits decode to: the request's 56 bits when a request is pending, the wire
word's 32 bits when a wire word is pending. Three things are the model's choice: which row names a wire word (log entry
2), the field `format` (log entry 5) and the packing (log entry 6). -/
def Obligations.StepRunsTheDecodedInstruction : Prop :=
  ∀ (s : State) (i : Instr), wellFormed i = true →
    (s.format = .req → decodeBits 56 (packRequest (requestNow s)).toNat = .ok i → step s = exec i s) ∧
    (s.format = .wire32 → s.op = 0b10 → decodeBits 32 s.wordIn.toNat = .ok i → step s = exec i s)

/-- The bits of an opcode-table row, presented, are the next instruction fetched, and the next step runs it. Three things
are the model's choice: which row names a wire word (log entry 2), how a wire word is presented (log entry 5) and the
packing of a request (log entry 6). -/
def Obligations.PresentedTableWordRunsNext : Prop :=
  ∀ (s : State) (nbits w : Nat) (i : Instr), decodeTableWord nbits w = some i →
    fetch (s.withFetchWord nbits w) = i ∧ step (s.withFetchWord nbits w) = exec i (s.withFetchWord nbits w)

/-- Decoding the bits of a well-formed instruction, of either format, gives it back, every operand at every value. Two
things are the model's choice: which row names a wire word, hence what is well formed (log entry 2), and the packing of a
request (log entry 6). -/
def Obligations.DecodeOfEncodedInstruction : Prop :=
  ∀ i : Instr, wellFormed i = true → decodeBits (encodeInstr i).nbits (encodeInstr i).bits = .ok i

/-- Every wire word decodes to a well-formed instruction that encodes to that very word: no bit is dropped, and no word is
left without a row (43_decode.md R90). Which row names the word, hence the clause that its instruction is well formed, is
the model's choice (log entry 2). -/
def Obligations.EncodeOfDecodedWireWord : Prop :=
  ∀ w : Word, wellFormed (decodeWire w) = true ∧ encodeInstr (decodeWire w) = ⟨32, w.toNat⟩ ∧
    decodeBits 32 w.toNat = .ok (decodeWire w)

/-- The overlap of the table's rows is harmless: any instruction, well formed or not, decodes from its own bits to one of
the same meaning. Three things are the model's choice: that each wire-word row means `DECODE` of its word, on which the
equality of `exec` rests (log entry 1), which row names a word, which decides only the name (log entry 2), and the packing
of a request (log entry 6). -/
def Obligations.OverlappingRowsMeanTheSame : Prop :=
  ∀ i : Instr, ∃ j, decodeBits (encodeInstr i).nbits (encodeInstr i).bits = .ok j ∧ wellFormed j = true ∧
    ∀ s : State, exec j s = exec i s

/-- Every instruction's bits carry the fixed bits of its row of spec/opcode_table.json (30_encoding.md R44, R46, R51). That a
row of format `REQ` has 56 bits is the model's packing (log entry 6), not the table's. -/
def Obligations.EveryInstructionMatchesItsRow : Prop := ∀ i : Instr, Sys2Proof.Laws.RowPattern.Statement i

/-- A few words of spec/opcode_table.json, and the document's example word, decode to the instructions they stand for. Two
things are the model's choice: which matching row names a wire word (log entry 2: 0x98100602 is also a `COMMAND` word,
0x00000612 also a `COMMAND_MODE_AUTO` word), and that 8 bits are the low bits of a request with zeros above (log entry 6). -/
def Obligations.SampleWordsDecode : Prop :=
  decodeTableWord 8 0x01 = some (.encode zeroCmd) ∧
  decodeTableWord 8 0x03 = some .reservedOp3 ∧
  decodeTableWord 32 0x98100602 = some (.commandModeCool true 2 false 1 false) ∧
  decodeTableWord 32 0x00000612 = some (.commandFahrenheit 0 false 0 false) ∧
  decodeTableWord 32 0x60000000 = some (.decodeModeUnlisted011 false 0 false 0 false ⟨false, 0, 0⟩)
end

