-- ==== Sys2Proof/Laws/Engine.lean ====
section
/-! SUPPORT. What the micro-operations of 41_fieldpack.md do, bit by bit, each said once. -/

namespace Sys2Proof.Machine

/-- 40_bitrev.md R60, bit by bit. -/
theorem getLsbD_rev8 (x : Byte) (i : Nat) : (rev8 x).getLsbD i = (decide (i < 8) && x.getLsbD (7 - i)) := by
  by_cases h : i < 8
  · have : i = 0 ∨ i = 1 ∨ i = 2 ∨ i = 3 ∨ i = 4 ∨ i = 5 ∨ i = 6 ∨ i = 7 := by omega
    rcases this with rfl | rfl | rfl | rfl | rfl | rfl | rfl | rfl <;> (revert x; decide +kernel)
  · rw [BitVec.getLsbD_of_ge _ _ (by omega)]
    simp [h]

/-- 41_fieldpack.md R72, bit by bit. -/
theorem getLsbD_rev4 (v : BitVec 4) (i : Nat) : (rev4 v).getLsbD i = (decide (i < 4) && v.getLsbD (3 - i)) := by
  by_cases h : i < 4
  · have : i = 0 ∨ i = 1 ∨ i = 2 ∨ i = 3 := by omega
    rcases this with rfl | rfl | rfl | rfl <;> (revert v; decide)
  · rw [BitVec.getLsbD_of_ge _ _ (by omega)]
    simp [h]

theorem rev4_rev4 (v : BitVec 4) : rev4 (rev4 v) = v := by revert v; decide

theorem rev2_rev2 (v : BitVec 2) : rev2 (rev2 v) = v := by revert v; decide

theorem fanOrder_fanOrder (b : Bool) (f : BitVec 2) : fanOrder b (fanOrder b f) = f := by
  cases b <;> simp [fanOrder, rev2_rev2]

/-- 41_fieldpack.md R67: extraction is the bits of the field. -/
theorem fext_eq_extract (w : Word) (off n : Nat) : fext w off n = w.extractLsb' off n := by
  ext i hi
  simp [fext]

theorem getLsbD_fext (w : Word) (off n i : Nat) : (fext w off n).getLsbD i = (decide (i < n) && w.getLsbD (off + i)) := by
  simp [fext]

theorem getLsbD_lowMask (n i : Nat) : (BitVec.ofNat 32 (2 ^ n - 1)).getLsbD i = (decide (i < 32) && decide (i < n)) := by
  simp [BitVec.getLsbD_ofNat, Nat.testBit_two_pow_sub_one]

/-- 41_fieldpack.md R68, bit by bit: the field's bits are ORed in, the others stay. -/
theorem getLsbD_fins (w : Word) (off n : Nat) (v : Word) (i : Nat) :
    (fins w off n v).getLsbD i =
      (w.getLsbD i || (decide (i < 32) && decide (off ≤ i) && decide (i < off + n) && v.getLsbD (i - off))) := by
  have e : off ≤ i → (i < off + n ↔ i - off < n) := by omega
  simp only [fins, BitVec.getLsbD_or, BitVec.getLsbD_shiftLeft, BitVec.getLsbD_and, getLsbD_lowMask]
  by_cases h32 : i < 32
  · have h' : i - off < 32 := by omega
    by_cases ho : off ≤ i
    · simp [h32, ho, h', e ho, Nat.not_lt.mpr ho, Bool.and_comm]
    · simp [ho]
  · simp [h32]

/-- 41_fieldpack.md R69, bit by bit. -/
theorem getLsbD_bset (w : Word) (i : Nat) (b : Bool) (j : Nat) :
    (bset w i b).getLsbD j = (w.getLsbD j || (b && decide (j < 32) && decide (j = i))) := by
  cases b with
  | false => simp [bset]
  | true =>
    by_cases h : j < 32 <;> by_cases e : j = i <;> by_cases l : i ≤ j <;>
      (simp [bset, h, e, l]; try omega)

/-- 41_fieldpack.md R70: the three cases of a clamp. -/
theorem clamp_cases (v lo hi : Int) :
    (v < lo ∧ clamp v lo hi = lo) ∨ (lo ≤ v ∧ hi < v ∧ clamp v lo hi = hi) ∨ (lo ≤ v ∧ v ≤ hi ∧ clamp v lo hi = v) := by
  unfold clamp
  split
  · exact .inl ⟨by assumption, rfl⟩
  · split
    · exact .inr (.inl ⟨by omega, by omega, rfl⟩)
    · exact .inr (.inr ⟨by omega, by omega, rfl⟩)

theorem celsiusMagnitude_range (v : Int) : 0 ≤ celsiusMagnitude v ∧ celsiusMagnitude v ≤ 14 := by
  rcases clamp_cases v tempMin tempMax with ⟨h, e⟩ | ⟨h, h', e⟩ | ⟨h, h', e⟩ <;>
    simp only [celsiusMagnitude, e, tempMin, tempMax, tempBase] at * <;> omega

theorem fanOk_iff (f : Int) : fanOk f = true ↔ 0 ≤ f ∧ f ≤ 3 := by simp [fanOk]

@[simp] theorem unitOfBit_bitOfUnit (u : TempUnit) : unitOfBit (bitOfUnit u) = u := by cases u <;> rfl

@[simp] theorem bitOfUnit_unitOfBit (b : Bool) : bitOfUnit (unitOfBit b) = b := by cases b <;> rfl

@[simp] theorem modeDec_modeEnc (m : Mode) : modeDec (modeEnc m) = m := by cases m <;> rfl

@[simp] theorem modeOfCode_codeOfMode (m : Mode) : modeOfCode (codeOfMode m) = some m := by cases m <;> rfl

end Sys2Proof.Machine
end

