-- ==== Sys2Proof/Laws/Codec.lean ====
section
/-! SUPPORT. `ENCODE` and `DECODE` field by field, each said once: the word `ENCODE` assembles, and what `DECODE` reads from
each field. -/

namespace Sys2Proof.Machine

/-- The fan field that `ENCODE` writes (42_encode.md R86). -/
def fanField (reversed : Bool) (f : Int) : BitVec 2 := if fanOk f then fanOrder reversed (BitVec.ofInt 2 f) else 0

/-- The temperature field that `ENCODE` writes (42_encode.md R82, R83). -/
def tempField (unit : TempUnit) (temperature : Int) : BitVec 4 :=
  match unit with
  | .celsius => rev4 (BitVec.ofInt 4 (celsiusMagnitude temperature))
  | .fahrenheit => 0

/-- 42_encode.md R82, R83: the temperature step is an insertion of `tempField`. -/
theorem stepTemp_eq_fins (c : Command) (w : Word) :
    stepTemp c w = fins w tempOff tempN ((tempField c.unit c.temperature).setWidth 32) := by
  unfold stepTemp tempField
  cases c.unit <;> simp [fins]

/-- 42_encode.md R86: the fan step is an insertion of `fanField`. -/
theorem stepFan_eq_fins (cfg : Config) (c : Command) (w : Word) :
    stepFan cfg c w = fins w fanOff fanN ((fanField cfg.encFanRev c.fanSpeed).setWidth 32) := by
  unfold stepFan fanField
  split <;> simp [fins]

/-- `ENCODE` assembles its fields over the base constant (42_encode.md R80, 30_encoding.md R44). -/
theorem encodeCommand_eq_wireWord (cfg : Config) (c : Command) :
    encodeCommand cfg c =
      wireWord (modeEnc c.mode) c.power (fanField cfg.encFanRev c.fanSpeed) c.sleep (tempField c.unit c.temperature)
        (bitOfUnit c.unit) baseIgnored := by
  unfold encodeCommand
  rw [stepFan_eq_fins, stepTemp_eq_fins]
  generalize fanField cfg.encFanRev c.fanSpeed = f
  generalize tempField c.unit c.temperature = t
  unfold stepMode stepSleep stepUnit stepPower
  generalize modeEnc c.mode = m
  apply BitVec.eq_of_getLsbD_eq
  intro i hi
  rw [getLsbD_wireWord]
  simp only [getLsbD_fins, getLsbD_bset, tempOff, tempN, modeOff, modeN, fanOff, fanN, powerBit, unitBit, sleepBit]
  interval_cases i <;> simp [baseIgnored]

/-- `DECODE` reads each field of the word (43_decode.md R90). -/
theorem decodeWord_eq_fields (cfg : Config) (w : Word) :
    decodeWord cfg w =
      { power := wirePower w
        mode := modeDec (wireMode w)
        fanSpeed := ((fanOrder cfg.decFanRev (wireFan w)).toNat : Int)
        sleep := wireSleep w
        temperature := temperatureOf (unitOfBit (wireUnit w)) (rev4 (wireTemp w))
        unit := unitOfBit (wireUnit w) } := by
  simp only [decodeWord, decodeUnit, fext_eq_extract, wirePower, wireMode, wireFan, wireSleep, wireTemp, wireUnit]

/-- `fanField` is undone by the decoder's order when the two fan parameters are equal (44_laws.md R110). -/
theorem toNat_fanOrder_fanField (b : Bool) (f : Int) :
    ((fanOrder b (fanField b f)).toNat : Int) = if fanOk f then f else 0 := by
  unfold fanField
  split
  · next h =>
    obtain ⟨h0, h3⟩ := (fanOk_iff f).mp h
    rw [fanOrder_fanOrder]
    have : f = 0 ∨ f = 1 ∨ f = 2 ∨ f = 3 := by omega
    rcases this with rfl | rfl | rfl | rfl <;> decide
  · cases b <;> decide

/-- `tempField` is undone by the decoder: the clamped temperature in Celsius, 0 in Fahrenheit (44_laws.md R107). -/
theorem temperatureOf_rev4_tempField (unit : TempUnit) (temperature : Int) :
    temperatureOf unit (rev4 (tempField unit temperature)) = keptTemperature unit temperature := by
  cases unit
  · have h := celsiusMagnitude_range temperature
    have e : clamp temperature tempMin tempMax = celsiusMagnitude temperature + 16 := by
      simp only [celsiusMagnitude, tempBase]; omega
    simp only [tempField, rev4_rev4, temperatureOf, keptTemperature, e]
    generalize celsiusMagnitude temperature = k at h
    have : ((BitVec.ofInt 4 k).toNat : Int) = k := by
      rw [BitVec.toNat_ofInt]
      omega
    rw [this]
  · change ((rev4 0).toNat : Int) = 0
    decide

end Sys2Proof.Machine
end

