-- ==== Sys2Proof/Laws/Decode.lean ====
section
/-! SUPPORT. Which row names an assembled word: the decoder of format `WIRE32` in terms of the word's fields. -/

namespace Sys2Proof

section Masks

variable (m : BitVec 3) (p : Bool) (f : BitVec 2) (sl : Bool) (t : BitVec 4) (u : Bool) (x : Ignored)

/-- The mask of the rows of an unlisted mode keeps the mode. -/
theorem wireWord_and_modeMask :
    wireWord m p f sl t u x &&& 0xE0000000#32 = wireWord m false 0 false 0 false ⟨false, 0, 0⟩ := by
  apply BitVec.eq_of_getLsbD_eq
  intro i hi
  interval_cases i <;> simp [wireWord]

/-- The mask of `COMMAND` keeps the ignored bits. -/
theorem wireWord_and_constMask : wireWord m p f sl t u x &&& 0x020FFFEF#32 = wireWord 0 false 0 false 0 false x := by
  apply BitVec.eq_of_getLsbD_eq
  intro i hi
  interval_cases i <;> simp [wireWord]

/-- The mask of the mode rows keeps the mode and the ignored bits. -/
theorem wireWord_and_modeConstMask : wireWord m p f sl t u x &&& 0xE20FFFEF#32 = wireWord m false 0 false 0 false x := by
  apply BitVec.eq_of_getLsbD_eq
  intro i hi
  interval_cases i <;> simp [wireWord]

/-- The mask of `COMMAND_CELSIUS` keeps the unit and the ignored bits. -/
theorem wireWord_and_celsiusMask : wireWord m p f sl t u x &&& 0x020FFFFF#32 = wireWord 0 false 0 false 0 u x := by
  apply BitVec.eq_of_getLsbD_eq
  intro i hi
  interval_cases i <;> simp [wireWord]

/-- The mask of `COMMAND_FAHRENHEIT` keeps the temperature, the unit and the ignored bits. -/
theorem wireWord_and_fahrenheitMask : wireWord m p f sl t u x &&& 0x02FFFFFF#32 = wireWord 0 false 0 false t u x := by
  apply BitVec.eq_of_getLsbD_eq
  intro i hi
  interval_cases i <;> simp [wireWord]

/-- Two assembled words are equal exactly when their fields are. -/
theorem wireWord_inj (m' : BitVec 3) (p' : Bool) (f' : BitVec 2) (sl' : Bool) (t' : BitVec 4) (u' : Bool) (x' : Ignored) :
    wireWord m p f sl t u x = wireWord m' p' f' sl' t' u' x' ↔
      m = m' ∧ p = p' ∧ f = f' ∧ sl = sl' ∧ t = t' ∧ u = u' ∧ x = x' := by
  constructor
  · intro h
    have hm := congrArg wireMode h
    have hp := congrArg wirePower h
    have hf := congrArg wireFan h
    have hs := congrArg wireSleep h
    have ht := congrArg wireTemp h
    have hu := congrArg wireUnit h
    have hx := congrArg wireIgnored h
    simp only [wireMode_wireWord, wirePower_wireWord, wireFan_wireWord, wireSleep_wireWord, wireTemp_wireWord,
      wireUnit_wireWord, wireIgnored_wireWord] at hm hp hf hs ht hu hx
    exact ⟨hm, hp, hf, hs, ht, hu, hx⟩
  · rintro ⟨rfl, rfl, rfl, rfl, rfl, rfl, rfl⟩
    rfl

/-- The row that names an assembled word, from its fields (log entry 2). -/
theorem decodeWire_wireWord :
    decodeWire (wireWord m p f sl t u x) =
      if t = 0 ∧ u = true ∧ x = baseIgnored then .commandFahrenheit m p f sl
      else if m = 0 ∧ x = baseIgnored then .commandModeAuto p f sl t u
      else if m = 1 ∧ x = baseIgnored then .commandModeHeat p f sl t u
      else if m = 2 ∧ x = baseIgnored then .commandModeDry p f sl t u
      else if m = 4 ∧ x = baseIgnored then .commandModeCool p f sl t u
      else if m = 6 ∧ x = baseIgnored then .commandModeFan p f sl t u
      else if (u = false ∧ x = baseIgnored) ∧ t ≠ 15 then .commandCelsius m p f sl t
      else if x = baseIgnored then .command m p f sl t u
      else if m = 3 then .decodeModeUnlisted011 p f sl t u x
      else if m = 5 then .decodeModeUnlisted101 p f sl t u x
      else if m = 7 then .decodeModeUnlisted111 p f sl t u x
      else .decodeAny m p f sl t u x := by
  have hF : (0x612#32 : Word) = wireWord 0 false 0 false 0 true baseIgnored := by decide
  have h0 : (0x602#32 : Word) = wireWord 0 false 0 false 0 false baseIgnored := by decide
  have h1 : (0x20000602#32 : Word) = wireWord 1 false 0 false 0 false baseIgnored := by decide
  have h2 : (0x40000602#32 : Word) = wireWord 2 false 0 false 0 false baseIgnored := by decide
  have h4 : (0x80000602#32 : Word) = wireWord 4 false 0 false 0 false baseIgnored := by decide
  have h6 : (0xC0000602#32 : Word) = wireWord 6 false 0 false 0 false baseIgnored := by decide
  have h3 : (0x60000000#32 : Word) = wireWord 3 false 0 false 0 false ⟨false, 0, 0⟩ := by decide
  have h5 : (0xA0000000#32 : Word) = wireWord 5 false 0 false 0 false ⟨false, 0, 0⟩ := by decide
  have h7 : (0xE0000000#32 : Word) = wireWord 7 false 0 false 0 false ⟨false, 0, 0⟩ := by decide
  have hmode : wireWord m p f sl t u x &&& wireWord 7 false 0 false 0 false ⟨false, 0, 0⟩ =
      wireWord m false 0 false 0 false ⟨false, 0, 0⟩ := by
    rw [← h7]
    exact wireWord_and_modeMask m p f sl t u x
  simp only [decodeWire, rowMatches, rowFahrenheit, rowModeAuto, rowModeHeat, rowModeDry, rowModeCool, rowModeFan,
    rowCelsius, rowCommand, rowUnlisted011, rowUnlisted101, rowUnlisted111, wireWord_and_fahrenheitMask,
    wireWord_and_modeConstMask, wireWord_and_celsiusMask, wireWord_and_constMask, hF, h0, h1, h2, h3, h4, h5, h6, h7, hmode,
    wireWord_inj, beq_iff_eq, wireMode_wireWord, wirePower_wireWord, wireFan_wireWord, wireSleep_wireWord,
    wireTemp_wireWord, wireUnit_wireWord, wireIgnored_wireWord, Bool.and_eq_true, bne_iff_ne]
  simp only [true_and, and_true]

end Masks

/-- A string of 32 bits is decoded as a wire word. -/
theorem decodeBits_wire (w : Word) : decodeBits 32 w.toNat = .ok (decodeWire w) := by
  have h : ¬ 2 ^ 32 ≤ w.toNat := Nat.not_le.mpr w.isLt
  simp only [decodeBits, if_neg h, wireBits, if_true, BitVec.ofNat_toNat, BitVec.setWidth_eq]

/-- A string of 56 bits is decoded as a request. -/
theorem decodeBits_request (r : Request) : decodeBits 56 (packRequest r).toNat = .ok (decodeRequest r) := by
  have h : ¬ 2 ^ 56 ≤ (packRequest r).toNat := Nat.not_le.mpr (packRequest r).isLt
  have h56 : ¬ (56 = wireBits) := by decide
  simp only [decodeBits, if_neg h, if_neg h56, requestBits, if_true, BitVec.ofNat_toNat, BitVec.setWidth_eq,
    unpackRequest_packRequest]

end Sys2Proof
end

