-- ==== Sys2Proof/Laws/State.lean ====
section
/-! SUPPORT. One lemma per field per update of the state, each true by rfl. -/

namespace Sys2Proof.Machine

variable (s : State) (w : Word) (c : CmdPort) (r : Request)

@[simp] theorem driveWord_format : (driveWord s w).format = s.format := rfl
@[simp] theorem driveWord_op : (driveWord s w).op = s.op := rfl
@[simp] theorem driveWord_wordIn : (driveWord s w).wordIn = s.wordIn := rfl
@[simp] theorem driveWord_cmdIn : (driveWord s w).cmdIn = s.cmdIn := rfl
@[simp] theorem driveWord_wordOut : (driveWord s w).wordOut = w := rfl
@[simp] theorem driveWord_cmdOut : (driveWord s w).cmdOut = zeroCmd := rfl

@[simp] theorem driveCommand_format : (driveCommand s c).format = s.format := rfl
@[simp] theorem driveCommand_op : (driveCommand s c).op = s.op := rfl
@[simp] theorem driveCommand_wordIn : (driveCommand s c).wordIn = s.wordIn := rfl
@[simp] theorem driveCommand_cmdIn : (driveCommand s c).cmdIn = s.cmdIn := rfl
@[simp] theorem driveCommand_wordOut : (driveCommand s c).wordOut = 0 := rfl
@[simp] theorem driveCommand_cmdOut : (driveCommand s c).cmdOut = c := rfl

@[simp] theorem present_format : (present s r).format = .req := rfl
@[simp] theorem present_op : (present s r).op = r.op := rfl
@[simp] theorem present_wordIn : (present s r).wordIn = r.wordIn := rfl
@[simp] theorem present_cmdIn : (present s r).cmdIn = r.cmdIn := rfl
@[simp] theorem present_wordOut : (present s r).wordOut = s.wordOut := rfl
@[simp] theorem present_cmdOut : (present s r).cmdOut = s.cmdOut := rfl

@[simp] theorem presentWire_format : (presentWire s w).format = .wire32 := rfl
@[simp] theorem presentWire_op : (presentWire s w).op = 0b10 := rfl
@[simp] theorem presentWire_wordIn : (presentWire s w).wordIn = w := rfl
@[simp] theorem presentWire_cmdIn : (presentWire s w).cmdIn = s.cmdIn := rfl
@[simp] theorem presentWire_wordOut : (presentWire s w).wordOut = s.wordOut := rfl
@[simp] theorem presentWire_cmdOut : (presentWire s w).cmdOut = s.cmdOut := rfl

@[simp] theorem requestNow_present : requestNow (present s r) = r := rfl
@[simp] theorem requestNow_driveWord : requestNow (driveWord s w) = requestNow s := rfl
@[simp] theorem requestNow_driveCommand : requestNow (driveCommand s c) = requestNow s := rfl
@[simp] theorem responseNow_driveWord : responseNow (driveWord s w) = ⟨w, zeroCmd⟩ := rfl
@[simp] theorem responseNow_driveCommand : responseNow (driveCommand s c) = ⟨0, c⟩ := rfl

/-- The reserved select is what no other value is (30_encoding.md R51). -/
theorem op_cases (op : BitVec 2) : op = 0b00 ∨ op = 0b01 ∨ op = 0b10 ∨ op = 0b11 := by
  revert op; decide

end Sys2Proof.Machine
end

