-- ==== Sys2Proof/Laws/Ops.lean ====
section
/-! SUPPORT. What each shared operation over the port can do, said once; later proofs cite these and unfold nothing. -/

namespace Sys2Proof.Machine

/-- The `DECODE` transaction answers one next state. -/
theorem decodeTransaction_next (w : Word) (s t : State) :
    decodeTransaction w s = .next t ↔ t = driveCommand s (portOfCommand (decodeWord hardware w)) := by
  simp [decodeTransaction, eq_comm]

/-- A wire row's word decodes to its letters (43_decode.md R90). -/
theorem decodeTransaction_wireWord (m : BitVec 3) (p : Bool) (f : BitVec 2) (sl : Bool) (t : BitVec 4) (u : Bool)
    (x : Ignored) (s : State) :
    decodeTransaction (wireWord m p f sl t u x) s =
      .next (driveCommand s (portOfCommand
        ⟨p, modeDec m, (f.toNat : Int), sl, temperatureOf (unitOfBit u) (rev4 t), unitOfBit u⟩)) := by
  simp [decodeTransaction, decodeWord_eq_fields, hardware, fanOrder]

/-- What `exec` can answer: a driven word, a driven command, or the one refusal (60_exceptions.md R130). -/
theorem exec_cases (i : Instr) (s : State) :
    (∃ w, exec i s = .next (driveWord s w)) ∨ (∃ c, exec i s = .next (driveCommand s c)) ∨
      (i = .reservedOp3 ∧ exec i s = .refused .reservedOperationSelect) := by
  cases i
  case rev8 w => exact .inl ⟨_, rfl⟩
  case encode c => exact .inl ⟨_, rfl⟩
  case reservedOp3 => exact .inr (.inr ⟨rfl, rfl⟩)
  all_goals exact .inr (.inl ⟨_, rfl⟩)

/-- `fetch` on a request (30_encoding.md R51). -/
theorem fetch_request (s : State) (h : s.format = .req) : fetch s = decodeRequest (requestNow s) := by
  simp [fetch, h]

/-- `fetch` on a presented wire word. -/
theorem fetch_wire (s : State) (h : s.format = .wire32) (h2 : s.op = 0b10) : fetch s = decodeWire s.wordIn := by
  simp [fetch, h, h2]

/-- Nothing but the select says whether a pending wire word is one. -/
theorem fetch_cases (s : State) :
    fetch s = decodeRequest (requestNow s) ∨ (s.format = .wire32 ∧ s.op = 0b10 ∧ fetch s = decodeWire s.wordIn) := by
  cases h : s.format
  · exact .inl (fetch_request s h)
  · by_cases h2 : s.op = 0b10
    · exact .inr ⟨rfl, h2, fetch_wire s h h2⟩
    · exact .inl (by simp only [fetch, h, if_neg h2])

end Sys2Proof.Machine
end

