-- ==== Sys2Proof/Tests/Slice0.lean ====
section
/-! SUPPORT. The model's own tests. Expected values come from spec/95_test_vectors.md and spec/30_encoding.md, or are written
out from a row's pattern; each theorem's comment names its source. The `witness_` theorems show that the hypotheses of a
statement in Certificates/Slice0/Obligations.lean can be met. -/

namespace Sys2Proof.Tests

open Sys2Proof.Machine

/-! ## Well-formedness: one ill-formed term for each check -/

-- COMMAND: a listed mode is a mode row's word.
theorem test_illFormed_command_listed : wellFormed (.command 0b100 true 2 false 1 false) = false := by decide
-- COMMAND: unit 0 and temp not 1111 is a COMMAND_CELSIUS word.
theorem test_illFormed_command_celsius : wellFormed (.command 0b011 true 2 false 1 false) = false := by decide
-- COMMAND: unit 1 and temp 0000 is a COMMAND_FAHRENHEIT word.
theorem test_illFormed_command_fahrenheit : wellFormed (.command 0b011 true 2 false 0 true) = false := by decide
-- COMMAND_MODE_*: unit 1 and temp 0000 is a COMMAND_FAHRENHEIT word.
theorem test_illFormed_modeRows : [Instr.commandModeAuto true 2 false 0 true, .commandModeHeat true 2 false 0 true,
    .commandModeDry true 2 false 0 true, .commandModeCool true 2 false 0 true, .commandModeFan true 2 false 0 true].map
    wellFormed = [false, false, false, false, false] := by decide
-- DECODE_MODE_UNLISTED_*: with the constant bits, the word is a COMMAND word.
theorem test_illFormed_unlistedRows : [Instr.decodeModeUnlisted011 true 2 false 1 false baseIgnored,
    .decodeModeUnlisted101 true 2 false 1 false baseIgnored, .decodeModeUnlisted111 true 2 false 1 false baseIgnored].map
    wellFormed = [false, false, false] := by decide
-- DECODE_ANY: an unlisted mode has its own row; with the constant bits the word is a COMMAND word.
theorem test_illFormed_any : [Instr.decodeAny 0b011 true 2 false 1 false ⟨false, 0, 0⟩,
    .decodeAny 0b000 true 2 false 1 false baseIgnored].map wellFormed = [false, false] := by decide
-- COMMAND_CELSIUS: a listed mode is a mode row's word; temp is never 1111.
theorem test_illFormed_celsius : [Instr.commandCelsius 0b100 true 2 false 1, .commandCelsius 0b011 true 2 false 15].map
    wellFormed = [false, false] := by decide

/-! ## Decoding: a word written out from each row's encoding -/

-- spec/opcode_table.json, REQ: op in bits 1:0; word_in from bit 2 up, cmd_in from bit 34 up (log entry 6).
theorem test_decode_rev8 : decodeTableWord 56 (0x0F <<< 2) = some (.rev8 0x0F) := by decide
theorem test_decode_encode : decodeTableWord 56 (0b0_00011000_0_00000010_001_1 <<< 34 ||| 0b01) =
    some (.encode ⟨true, 1, 2, false, 24, false⟩) := by decide
theorem test_decode_decode : decodeTableWord 56 (0x98100602 <<< 2 ||| 0b10) = some (.decode 0x98100602) := by decide
theorem test_decode_reservedOp3 : decodeTableWord 8 0b11 = some .reservedOp3 := by decide
-- mmm p ff 0 s tttt 000000000110000 u 0010, with a mode and a temp that no narrower row names.
theorem test_decode_command : decodeTableWord 32 0b011_1_10_0_1_0100_000000000110000_1_0010 =
    some (.command 0b011 true 0b10 true 0b0100 true) := by decide
theorem test_decode_modeAuto : decodeTableWord 32 0b000_1_01_0_0_1010_000000000110000_0_0010 =
    some (.commandModeAuto true 0b01 false 0b1010 false) := by decide
theorem test_decode_modeHeat : decodeTableWord 32 0b001_0_10_0_1_1100_000000000110000_0_0010 =
    some (.commandModeHeat false 0b10 true 0b1100 false) := by decide
theorem test_decode_modeDry : decodeTableWord 32 0b010_1_01_0_0_0110_000000000110000_0_0010 =
    some (.commandModeDry true 0b01 false 0b0110 false) := by decide
theorem test_decode_modeCool : decodeTableWord 32 0b100_1_10_0_0_0001_000000000110000_0_0010 =
    some (.commandModeCool true 0b10 false 0b0001 false) := by decide
theorem test_decode_modeFan : decodeTableWord 32 0b110_1_01_0_1_1101_000000000110000_1_0010 =
    some (.commandModeFan true 0b01 true 0b1101 true) := by decide
-- 011 p ff x s tttt xxxxxxxxxxxxxxx u xxxx, and the same with 101 and 111.
theorem test_decode_unlisted011 : decodeTableWord 32 0b011_1_10_1_0_0100_100000000110001_1_1010 =
    some (.decodeModeUnlisted011 true 0b10 false 0b0100 true ⟨true, 0b100000000110001, 0b1010⟩) := by decide
theorem test_decode_unlisted101 : decodeTableWord 32 0b101_0_01_0_1_1000_000000000000000_0_0001 =
    some (.decodeModeUnlisted101 false 0b01 true 0b1000 false ⟨false, 0, 1⟩) := by decide
theorem test_decode_unlisted111 : decodeTableWord 32 0xFFFFFFFF =
    some (.decodeModeUnlisted111 true 0b11 true 0b1111 true ⟨true, 0b111111111111111, 0b1111⟩) := by decide
-- The constant bits absent (30_encoding.md R50).
theorem test_decode_any : decodeTableWord 32 0b100_1_10_0_0_0001_000000000000000_0_0000 =
    some (.decodeAny 0b100 true 0b10 false 0b0001 false ⟨false, 0, 0⟩) := by decide
theorem test_decode_celsius : decodeTableWord 32 0b101_1_10_0_1_0111_000000000110000_0_0010 =
    some (.commandCelsius 0b101 true 0b10 true 0b0111) := by decide
theorem test_decode_fahrenheit : decodeTableWord 32 0b110_1_11_0_1_0000_000000000110000_1_0010 =
    some (.commandFahrenheit 0b110 true 0b11 true) := by decide
-- Refusals by name: no format has 40 bits; a bit beyond the length.
theorem test_decode_badLength : (match decodeBits 40 0 with | .error e => some e | .ok _ => none) = some (.lengthOfNoFormat 40) := by
  decide
theorem test_decode_bitsBeyond : (match decodeBits 32 (2 ^ 32) with | .error e => some e | .ok _ => none) =
    some (.bitsBeyondLength 32 (2 ^ 32)) := by decide

/-- The number of bits that a row fixes. -/
def fixedBits (row : TableRow) : Nat := (List.range 32).countP row.mask.testBit

-- The decoder asks the rows in the order of the bits they fix, most first (log entry 2).
theorem test_rows_mostFixedFirst : [rowFahrenheit, rowModeAuto, rowModeHeat, rowModeDry, rowModeCool, rowModeFan, rowCelsius,
    rowCommand, rowUnlisted011, rowUnlisted101, rowUnlisted111, rowAny].map fixedBits =
    [25, 23, 23, 23, 23, 23, 21, 20, 3, 3, 3, 0] := by decide

/-! ## One step -/

/-- A state whose outputs are not zero, so that a test sees what a step clears. -/
def busy : State := { State.reset with wordOut := 0xFFFFFFFF, cmdOut := ⟨true, 4, 3, true, 31, false⟩ }

/-- The outputs of a next state. -/
def outputs : Result → Option PortResponse
  | .next t => some (responseNow t)
  | _ => none

-- 95_test_vectors.md 2.8, the rows named by their inputs.
theorem test_rev8_port : outputs (step (present busy ⟨0b00, 0xFFFFFF01, zeroCmd⟩)) = some ⟨0x00000080, zeroCmd⟩ := by decide
theorem test_rev8_asymmetric : outputs (exec (.rev8 0x12345678) busy) = some ⟨0x0000001E, zeroCmd⟩ := by decide
theorem test_encode_heat : outputs (step (present busy ⟨0b01, 0, ⟨true, 4, 0x03, true, 0x1E, false⟩⟩)) =
    some ⟨0x3D700602, zeroCmd⟩ := by decide
theorem test_encode_dropped_clamped : outputs (step (present busy ⟨0b01, 0, ⟨false, 3, 0xFF, true, 0xFF, false⟩⟩)) =
    some ⟨0xC1700602, zeroCmd⟩ := by decide
theorem test_decode_heat : outputs (step (present busy ⟨0b10, 0x3D700602, zeroCmd⟩)) =
    some ⟨0, ⟨true, 4, 0x03, true, 0x1E, false⟩⟩ := by decide
theorem test_decode_allOnes : outputs (step (present busy ⟨0b10, 0xFFFFFFFF, zeroCmd⟩)) =
    some ⟨0, ⟨true, 0, 0x03, true, 0x0F, true⟩⟩ := by decide
theorem test_reservedOp3_refused : step (present busy ⟨0b11, 0, zeroCmd⟩) = .refused .reservedOperationSelect := rfl
-- 95_test_vectors.md 2.5, presented as wire words.
theorem test_wire_cool : outputs (step (presentWire busy 0x98100602)) = some ⟨0, ⟨true, 1, 2, false, 24, false⟩⟩ := by decide
theorem test_wire_auto : outputs (step (presentWire busy 0x00E00602)) = some ⟨0, ⟨false, 0, 0, false, 23, false⟩⟩ := by decide
theorem test_wire_heat : outputs (step (presentWire busy 0x3D700602)) = some ⟨0, ⟨true, 4, 3, true, 30, false⟩⟩ := by decide
theorem test_wire_dry : outputs (step (presentWire busy 0x54600602)) = some ⟨0, ⟨true, 2, 1, false, 22, false⟩⟩ := by decide
theorem test_wire_fan : outputs (step (presentWire busy 0xD5D00602)) = some ⟨0, ⟨true, 3, 1, true, 27, false⟩⟩ := by decide
theorem test_wire_any : outputs (step (presentWire busy 0xDEADBEEF)) = some ⟨0, ⟨true, 3, 3, false, 21, false⟩⟩ := by decide
theorem test_wire_unlisted011 : outputs (step (presentWire busy 0x60000000)) = some ⟨0, ⟨false, 0, 0, false, 16, false⟩⟩ := by
  decide
theorem test_wire_unlisted101 : outputs (step (presentWire busy 0xA0000000)) = some ⟨0, ⟨false, 0, 0, false, 16, false⟩⟩ := by
  decide
theorem test_wire_unlisted111 : outputs (step (presentWire busy 0xFFFFFFFF)) = some ⟨0, ⟨true, 0, 3, true, 15, true⟩⟩ := by
  decide
theorem test_wire_fahrenheit : outputs (step (presentWire busy 0x98000612)) = some ⟨0, ⟨true, 1, 2, false, 0, true⟩⟩ := by
  decide
-- 0x7D700612: mode 011 with a Fahrenheit field, a COMMAND word; 0xFD700602: mode 111 in Celsius, a COMMAND_CELSIUS word.
theorem test_wire_command : outputs (step (presentWire busy 0x7D700612)) = some ⟨0, ⟨true, 0, 3, true, 14, true⟩⟩ := by decide
theorem test_wire_celsius : outputs (step (presentWire busy 0xFD700602)) = some ⟨0, ⟨true, 0, 3, true, 30, false⟩⟩ := by decide
-- What the host asks of the row COMMAND_MODE_COOL.
theorem test_fetchWord_cool : fetch (State.reset.withFetchWord 32 0x80000602) = .commandModeCool false 0 false 0 false := by
  decide
-- 95_test_vectors.md P1, as lines of 30_encoding.md R58.
theorem test_lines_example : [Line.mk (.encode ⟨true, .cool, 2, false, 24, .celsius⟩) (.word 0x98100602),
    Line.mk (.decode 0x98100602) (.command ⟨true, .cool, 2, false, 24, .celsius⟩),
    Line.mk (.rev8 0x00000008) (.word 0x00000010)].map (lineHolds hardware) = [true, true, true] := by decide

/-! ## Witnesses: the hypotheses of the statements can be met -/

theorem witness_SwapStepsInAnyOrderReverse : [swapNibbles, swapBits, swapPairs].Perm [swapBits, swapPairs, swapNibbles] :=
  (List.Perm.swap _ _ _).trans ((List.Perm.swap _ _ _).cons _)

theorem witness_Rev8Laws : (0 ≤ 8 ∧ (0 : Byte).toNat < 2 ^ 0) ∧ (4 ≤ 8 ∧ (15 : Byte).toNat < 2 ^ 4) ∧
    (8 ≤ 8 ∧ (255 : Byte).toNat < 2 ^ 8) := by decide

theorem witness_ExtractReadsTheFieldAlone : 1 ≤ 3 ∧ 29 + 3 ≤ 32 ∧
    ∀ i, 29 ≤ i → i < 29 + 3 → (0x80000602 : Word).getLsbD i = (0x9FFFFFFF : Word).getLsbD i := by
  refine ⟨by decide, by decide, fun i h h' => ?_⟩
  have : i = 29 ∨ i = 30 ∨ i = 31 := by omega
  rcases this with rfl | rfl | rfl <;> decide

theorem witness_InsertOrsIntoTheField : 1 ≤ 3 ∧ 29 + 3 ≤ 32 := by decide

theorem witness_BitSetIsOneBitInsert : (31 : Nat) < 32 := by decide

theorem witness_ClampForcesIntoTheRange : (16 : Int) ≤ 16 ∧ (16 : Int) ≤ 30 ∧ (15 : Int) ≤ 31 := by decide

theorem witness_TemperatureOffsetInCelsiusOnly : (Command.mk true .cool 2 false 30 .celsius).unit = .celsius ∧
    (Command.mk true .cool 2 false 30 .fahrenheit).unit = .fahrenheit := by decide

theorem witness_ModeTables : 5 ≤ (CmdPort.mk true 5 0 false 0 false).mode.toNat := by decide

-- Two fields that touch: SLEEP's neighbour bit 25 and FAN.
theorem witness_DisjointInsertionsAreIndependent : 1 ≤ 2 ∧ 26 + 2 ≤ 32 ∧ 1 ≤ 1 ∧ 25 + 1 ≤ 32 ∧ 25 + 1 ≤ 26 ∧
    fext 0x602 26 2 = 0 := by decide

theorem witness_FahrenheitTemperatureIsNotWritten :
    (Command.mk true .cool 2 false 75 .fahrenheit).unit = .fahrenheit := rfl

-- Just outside each bound, and a negative temperature.
theorem witness_CelsiusTemperatureIsClamped :
    ((Command.mk true .cool 2 false 15 .celsius).unit = .celsius ∧ (Command.mk true .cool 2 false 15 .celsius).temperature < 16) ∧
    (Command.mk true .cool 2 false (-1) .celsius).temperature < 16 ∧
    ((Command.mk true .cool 2 false 31 .celsius).unit = .celsius ∧
      30 < (Command.mk true .cool 2 false 31 .celsius).temperature) := by decide

theorem witness_FanOutOfRangeIsDropped :
    ¬(0 ≤ (Command.mk true .cool 4 false 24 .celsius).fanSpeed ∧ (Command.mk true .cool 4 false 24 .celsius).fanSpeed ≤ 3) ∧
    ¬(0 ≤ (Command.mk true .cool (-1) false 24 .celsius).fanSpeed ∧
      (Command.mk true .cool (-1) false 24 .celsius).fanSpeed ≤ 3) := by decide

theorem witness_EncodeStepsInAnyOrder (c : Command) : (encodeSteps hardware c).reverse.Perm (encodeSteps hardware c) ∧
    (Command.mk true .cool 2 false 75 .fahrenheit).unit = .fahrenheit ∧ 5 ≤ (CmdPort.mk true 5 0 false 0 false).mode.toNat :=
  ⟨List.reverse_perm _, rfl, by decide⟩

theorem witness_DecodeReadsFieldBitsOnly : 25 ∈ [25, 19, 18, 17, 16, 15, 14, 13, 12, 11, 10, 9, 8, 7, 6, 5, 3, 2, 1, 0] ∧
    ∀ j, j ≠ 25 → (0x02000000 : Word).getLsbD j = (0x00000000 : Word).getLsbD j := by
  refine ⟨by decide, fun j h => ?_⟩
  have e : (0x02000000 : Word) = BitVec.twoPow 32 25 := by decide
  rw [e, BitVec.getLsbD_twoPow]
  have : ¬ 25 = j := fun k => h k.symm
  simp [this]

theorem witness_DecodeResultsAreCounted : (decodeWord hardware 0x00F00000).unit = .celsius ∧
    (decodeWord hardware 0x00F00010).unit = .fahrenheit := by decide

theorem witness_UnlistedModeReadsAsAuto : ((0x60000000 : Word).extractLsb' 29 3).toNat ∈ [0b011, 0b101, 0b111] ∧
    ((0xA0000000 : Word).extractLsb' 29 3).toNat ∈ [0b011, 0b101, 0b111] ∧
    ((0xE0000000 : Word).extractLsb' 29 3).toNat ∈ [0b011, 0b101, 0b111] := by decide

theorem witness_CelsiusCommandsRoundTrip : canonC ⟨true, .heat, 0, true, 16, .celsius⟩ = true ∧
    canonC ⟨false, .fan, 3, false, 30, .celsius⟩ = true := by decide

theorem witness_DecodeAfterEncodeIsTheNormalForm : hardware.encFanRev = hardware.decFanRev ∧
    (Config.mk true true).encFanRev = (Config.mk true true).decFanRev := by decide

theorem witness_EncodeAfterDecodeExactlyOnGood : goodWord 0xDEADBEEF = true ∧ goodWord 0x60000000 = false ∧
    ((0x60000000 : Word).extractLsb' 29 3).toNat ∈ [0b011, 0b101, 0b111] ∧
    ((0x00F00000 : Word).getLsbD 4 = false ∧ (0x00F00000 : Word).extractLsb' 20 4 = 0b1111) ∧
    (0x00100010 : Word).getLsbD 4 = true := by decide

theorem witness_FahrenheitLosesItsTemperature : (Command.mk true .cool 3 false 75 .fahrenheit).unit = .fahrenheit ∧
    0 ≤ (Command.mk true .cool 3 false 75 .fahrenheit).fanSpeed ∧ (Command.mk true .cool 3 false 75 .fahrenheit).fanSpeed ≤ 3 := by
  decide

theorem witness_EncodeImageIsExact : (Config.mk true true).encFanRev = (Config.mk true true).decFanRev ∧
    canonC ⟨true, .cool, 2, false, 24, .celsius⟩ = true ∧
    canonF ⟨true, .cool, 2, false, 0, .fahrenheit⟩ = true := by decide

theorem witness_MismatchedFanParameters : (Config.mk false true).encFanRev ≠ (Config.mk false true).decFanRev ∧
    (Config.mk true false).encFanRev ≠ (Config.mk true false).decFanRev := by decide

-- Two words that agree in every field of DECODE and differ outside; two commands that agree in every field but none whole.
theorem witness_FieldsAreIndependent : ((0x98100602 : Word).getLsbD 28 = (0x9A1FFFEF : Word).getLsbD 28 ∧
    (0x98100602 : Word).extractLsb' 29 3 = (0x9A1FFFEF : Word).extractLsb' 29 3 ∧
    (0x98100602 : Word).extractLsb' 26 2 = (0x9A1FFFEF : Word).extractLsb' 26 2 ∧
    (0x98100602 : Word).getLsbD 24 = (0x9A1FFFEF : Word).getLsbD 24 ∧
    (0x98100602 : Word).extractLsb' 20 4 = (0x9A1FFFEF : Word).extractLsb' 20 4 ∧
    (0x98100602 : Word).getLsbD 4 = (0x9A1FFFEF : Word).getLsbD 4) ∧
    ((Command.mk true .cool 2 false 24 .celsius).temperature = (Command.mk false .dry 1 true 24 .celsius).temperature ∧
    (Command.mk true .cool 2 false 24 .celsius).unit = (Command.mk false .dry 1 true 24 .celsius).unit) := by decide

theorem witness_ReservedSelectIsRefused : (present busy ⟨0b11, 0, zeroCmd⟩).op = 0b11 := rfl

theorem witness_StepAnswersOrRefusesTheReservedSelect : (present busy ⟨0b10, 0, zeroCmd⟩).op ≠ 0b11 := by decide

-- Two states with one select whose unread inputs differ, for each select.
theorem witness_StepDrivesTheSelectedResult :
    ((present busy ⟨0b00, 0xFFFFFF01, zeroCmd⟩).wordIn.extractLsb' 0 8 = (present busy ⟨0b00, 0x01, zeroCmd⟩).wordIn.extractLsb' 0 8) ∧
    ((present busy ⟨0b01, 0xFFFFFFFF, zeroCmd⟩).cmdIn = (present busy ⟨0b01, 0, zeroCmd⟩).cmdIn) ∧
    ((present busy ⟨0b10, 0x020FFFEF, zeroCmd⟩).wordIn &&& fieldMask = (present busy ⟨0b10, 0, zeroCmd⟩).wordIn &&& fieldMask) ∧
    (∃ t, step (present busy ⟨0b10, 0x020FFFEF, zeroCmd⟩) = .next t) := ⟨by decide, by decide, by decide, _, rfl⟩

-- The same request in two states that differ in their outputs and in the format.
theorem witness_ResponseDependsOnTheRequestAlone :
    requestNow (presentWire busy 0x98100602) = requestNow (present State.reset ⟨0b10, 0x98100602, zeroCmd⟩) ∧
    presentWire busy 0x98100602 ≠ present State.reset ⟨0b10, 0x98100602, zeroCmd⟩ := by decide

theorem witness_NoInstructionChangesTheInputs : ∃ t, exec (.decode 0x98100602) busy = .next t := ⟨_, rfl⟩

theorem witness_EveryStepLeavesLegalOutputs : ∃ t, step (present busy ⟨0b01, 0, ⟨true, 7, 0xFF, true, 0xFF, true⟩⟩) = .next t :=
  ⟨_, rfl⟩

theorem witness_TransactionsCommuteAndRepeat : (Request.mk 0b00 0 zeroCmd).op ≠ 0b11 ∧ (Request.mk 0b10 0 zeroCmd).op ≠ 0b11 ∧
    ∃ t, step (present busy ⟨0b00, 0x0F, zeroCmd⟩) = .next t := ⟨by decide, by decide, _, rfl⟩

theorem witness_RunIsTheListOfItsResponses :
    (∀ r ∈ [Request.mk 0b01 0 ⟨true, 1, 2, false, 24, false⟩, Request.mk 0b10 0x98100602 zeroCmd], r.op ≠ 0b11) ∧
    (∃ r ∈ [Request.mk 0b00 0 zeroCmd, Request.mk 0b11 0 zeroCmd], r.op = 0b11) := by decide

theorem witness_PortRefinesTheTypedLevel : fitsPort (.encode ⟨true, .fan, 0, true, 255, .celsius⟩) = true ∧
    fitsPort (.encode ⟨true, .fan, 255, true, 0, .fahrenheit⟩) = true ∧ fitsPort (.rev8 0) = true ∧ fitsPort (.decode 0) = true := by
  decide

theorem witness_NothingNormalisedNothingLost : NothingNormalised ⟨0b01, 0, ⟨true, 4, 3, true, 30, false⟩⟩ ∧
    NothingNormalised ⟨0b10, 0x98100602, zeroCmd⟩ ∧ NothingNormalised ⟨0b00, 0xFF, zeroCmd⟩ := by
  refine ⟨?_, ?_, ?_⟩ <;> (intro n; cases n <;> rfl)

theorem witness_StepRunsTheDecodedInstruction :
    (wellFormed (.decode 0x98100602) = true ∧ (present busy ⟨0b10, 0x98100602, zeroCmd⟩).format = .req ∧
      decodeBits 56 (packRequest (requestNow (present busy ⟨0b10, 0x98100602, zeroCmd⟩))).toNat = .ok (.decode 0x98100602)) ∧
    (wellFormed (.commandModeCool true 2 false 1 false) = true ∧ (presentWire busy 0x98100602).format = .wire32 ∧
      (presentWire busy 0x98100602).op = 0b10 ∧
      decodeBits 32 (presentWire busy 0x98100602).wordIn.toNat = .ok (.commandModeCool true 2 false 1 false)) :=
  ⟨⟨rfl, rfl, rfl⟩, ⟨rfl, rfl, rfl, rfl⟩⟩

theorem witness_PresentedTableWordRunsNext : decodeTableWord 8 0b10 = some (.decode 0) ∧
    decodeTableWord 32 0x60000000 = some (.decodeModeUnlisted011 false 0 false 0 false ⟨false, 0, 0⟩) := by decide

theorem witness_DecodeOfEncodedInstruction : [Instr.rev8 0xFFFFFFFF, .encode ⟨true, 7, 255, true, 255, true⟩, .decode 0xFFFFFFFF,
    .reservedOp3, .command 0b111 true 3 true 15 false, .commandModeAuto true 3 true 15 true, .commandModeHeat true 3 true 15 true,
    .commandModeDry true 3 true 15 true, .commandModeCool true 3 true 15 true, .commandModeFan true 3 true 15 true,
    .decodeModeUnlisted011 true 3 true 15 true ⟨true, 0, 0⟩, .decodeModeUnlisted101 true 3 true 15 true ⟨true, 0, 0⟩,
    .decodeModeUnlisted111 true 3 true 15 true ⟨true, 0, 0⟩, .decodeAny 0b110 true 3 true 15 true ⟨true, 0, 0⟩,
    .commandCelsius 0b111 true 3 true 14, .commandFahrenheit 0b111 true 3 true].all wellFormed = true := by decide

end Sys2Proof.Tests
end

section
/-! One transaction at the port, for each select, whichever format names the pending item; and what follows for the response
as a function of the request (10_state.md R26). -/

namespace Sys2Proof.Machine

/-- `exec` of a choice between two instructions, from what it answers on each. -/
theorem exec_ite {c : Prop} [Decidable c] {i j : Instr} {s : State} {r : Result} (hpos : c → exec i s = r)
    (hneg : ¬ c → exec j s = r) : exec (if c then i else j) s = r := by
  by_cases h : c
  · rw [if_pos h, hpos h]
  · rw [if_neg h, hneg h]

/-- Whichever row names an assembled word, its instruction is `DECODE` of that word (log entries 1 and 2). -/
theorem exec_decodeWire_wireWord (m : BitVec 3) (p : Bool) (f : BitVec 2) (sl : Bool) (t : BitVec 4) (u : Bool)
    (x : Ignored) (s : State) :
    exec (decodeWire (wireWord m p f sl t u x)) s = decodeTransaction (wireWord m p f sl t u x) s := by
  rw [decodeWire_wireWord]
  refine exec_ite ?fahrenheit fun _ => exec_ite ?auto fun _ => exec_ite ?heat fun _ => exec_ite ?dry fun _ =>
    exec_ite ?cool fun _ => exec_ite ?fan fun _ => exec_ite ?celsius fun _ => exec_ite ?command fun _ =>
    exec_ite ?unlisted011 fun _ => exec_ite ?unlisted101 fun _ => exec_ite ?unlisted111 fun _ => ?any
  case fahrenheit => rintro ⟨rfl, rfl, rfl⟩; rfl
  case auto | heat | dry | cool | fan => rintro ⟨rfl, rfl⟩; rfl
  case celsius => rintro ⟨⟨rfl, rfl⟩, -⟩; rfl
  case command | unlisted011 | unlisted101 | unlisted111 => rintro rfl; rfl
  case any => rfl

/-- The row that names a wire word decides only the name of its instruction (43_decode.md R90). -/
theorem exec_decodeWire (w : Word) (s : State) : exec (decodeWire w) s = decodeTransaction w s := by
  have hfields := exec_decodeWire_wireWord (wireMode w) (wirePower w) (wireFan w) (wireSleep w) (wireTemp w) (wireUnit w)
    (wireIgnored w) s
  rwa [wireWord_fields] at hfields

/-- The model's own field `format` has no effect: a step is the request's operation, also when a wire word is pending (log
entry 5). -/
theorem step_eq_exec_request (s : State) : step s = exec (decodeRequest (requestNow s)) s := by
  obtain hreq | ⟨-, hop, hwire⟩ := fetch_cases s
  · rw [step, hreq]
  · have hdecode : decodeRequest (requestNow s) = .decode s.wordIn := by simp [decodeRequest, requestNow, hop]
    rw [step, hwire, exec_decodeWire, hdecode]
    rfl

section Select

variable {s : State}

theorem step_of_decodeRequest {i : Instr} (h : decodeRequest (requestNow s) = i) : step s = exec i s := by
  rw [step_eq_exec_request, h]

theorem step_of_op_rev8 (h : s.op = 0b00) : step s = .next (driveWord s (rev8Word s.wordIn)) :=
  step_of_decodeRequest (i := .rev8 s.wordIn) (by simp [decodeRequest, requestNow, h])

theorem step_of_op_encode (h : s.op = 0b01) :
    step s = .next (driveWord s (encodeCommand hardware (commandOfPort s.cmdIn))) :=
  step_of_decodeRequest (i := .encode s.cmdIn) (by simp [decodeRequest, requestNow, h])

theorem step_of_op_decode (h : s.op = 0b10) :
    step s = .next (driveCommand s (portOfCommand (decodeWord hardware s.wordIn))) :=
  step_of_decodeRequest (i := .decode s.wordIn) (by simp [decodeRequest, requestNow, h])

theorem step_of_op_reserved (h : s.op = 0b11) : step s = .refused .reservedOperationSelect :=
  step_of_decodeRequest (i := .reservedOp3) (by simp [decodeRequest, requestNow, h])

end Select

/-- A step answers what `respond` says of the pending request, and is refused exactly where `respond` says nothing. -/
theorem step_answers_respond (s : State) :
    (∃ t, step s = .next t ∧ respond (requestNow s) = some (responseNow t)) ∨
      (respond (requestNow s) = none ∧ step s = .refused .reservedOperationSelect) := by
  obtain h | h | h | h := op_cases s.op
  · exact .inl ⟨_, step_of_op_rev8 h, by simp [respond, requestNow, h]⟩
  · exact .inl ⟨_, step_of_op_encode h, by simp [respond, requestNow, h]⟩
  · exact .inl ⟨_, step_of_op_decode h, by simp [respond, requestNow, h]⟩
  · exact .inr ⟨by simp [respond, requestNow, h], step_of_op_reserved h⟩

/-- Settles O41: both steps are `respond` of the one request, so they answer the same or are both refused. -/
theorem responseDependsOnTheRequestAlone : Obligations.ResponseDependsOnTheRequestAlone := by
  intro s s' hreq
  have hs' := step_answers_respond s'
  rw [← hreq] at hs'
  obtain ⟨t, hstep, hresp⟩ | ⟨hnone, hstep⟩ := step_answers_respond s
  · obtain ⟨t', hstep', hresp'⟩ | ⟨hnone, -⟩ := hs'
    · have hsame : responseNow t = responseNow t' := Option.some.inj (hresp.symm.trans hresp')
      exact .inl ⟨t, t', hstep, hstep', hsame, hresp⟩
    · simp [hresp] at hnone
  · obtain ⟨t', -, hresp'⟩ | ⟨-, hstep'⟩ := hs'
    · simp [hnone] at hresp'
    · exact .inr ⟨hnone, hstep, hstep'⟩

end Sys2Proof.Machine
end

section
/-! Runs of the port (20_memory.md R39): a run's responses are those of its requests, whatever the state and the order, and
a step repeated on unchanged inputs has no further effect. -/

namespace Sys2Proof.Machine

@[simp] theorem driveWord_driveWord (s : State) (w w' : Word) : driveWord (driveWord s w) w' = driveWord s w' := rfl

@[simp] theorem driveCommand_driveCommand (s : State) (c c' : CmdPort) :
    driveCommand (driveCommand s c) c' = driveCommand s c' := rfl

@[simp] theorem runRequests_nil (s : State) : runRequests [] s = .next (s, []) := rfl

theorem runRequests_cons_next {r : Request} {rs : List Request} {s t u : State} {out : List PortResponse}
    (hstep : step (present s r) = .next t) (hrun : runRequests rs t = .next (u, out)) :
    runRequests (r :: rs) s = .next (u, responseNow t :: out) := by
  simp only [runRequests, hstep, hrun]

/-- Every select but the reserved one has a response (30_encoding.md R51). -/
theorem exists_respond_eq_some {r : Request} (h : r.op ≠ 0b11) : ∃ a, respond r = some a := by
  obtain hop | hop | hop | hop := op_cases r.op
  · simp [respond, hop]
  · simp [respond, hop]
  · simp [respond, hop]
  · exact absurd hop h

/-- In any state, the step after a request drives the request's own response. -/
theorem step_present_of_respond {r : Request} {a : PortResponse} (h : respond r = some a) (s : State) :
    ∃ t, step (present s r) = .next t ∧ responseNow t = a := by
  obtain ⟨t, hstep, hresp⟩ | ⟨hnone, -⟩ := step_answers_respond (present s r)
  · rw [requestNow_present, h] at hresp
    exact ⟨t, hstep, (Option.some.inj hresp).symm⟩
  · simp [h] at hnone

/-- From any state, a run of requests that each have a response collects exactly those, in order. -/
theorem runRequests_of_respond {rs : List Request} {out : List PortResponse} (h : rs.map respond = out.map some)
    (s : State) : ∃ u, runRequests rs s = .next (u, out) := by
  induction rs generalizing out s with
  | nil =>
    obtain rfl : out = [] := by simpa using h
    exact ⟨s, runRequests_nil s⟩
  | cons r rs ih =>
    cases out with
    | nil => simp at h
    | cons a out =>
      obtain ⟨hfirst, hrest⟩ := List.cons.inj h
      obtain ⟨t, hstep, rfl⟩ := step_present_of_respond hfirst s
      obtain ⟨u, hrun⟩ := ih hrest t
      exact ⟨u, runRequests_cons_next hstep hrun⟩

/-- The inputs stay (log entry 8), so the next step drives the same result over itself. -/
theorem step_repeats {s t : State} (h : step s = .next t) : step t = .next t := by
  obtain hop | hop | hop | hop := op_cases s.op
  · obtain rfl : driveWord s _ = t := by simpa [step_of_op_rev8 hop] using h
    rw [step_of_op_rev8 (s := driveWord s _) hop, driveWord_driveWord, driveWord_wordIn]
  · obtain rfl : driveWord s _ = t := by simpa [step_of_op_encode hop] using h
    rw [step_of_op_encode (s := driveWord s _) hop, driveWord_driveWord, driveWord_cmdIn]
  · obtain rfl : driveCommand s _ = t := by simpa [step_of_op_decode hop] using h
    rw [step_of_op_decode (s := driveCommand s _) hop, driveCommand_driveCommand, driveCommand_wordIn]
  · simp [step_of_op_reserved hop] at h

/-- Settles O45: each run collects `respond` of its own requests, and a step's result is a fixed point of `step`. -/
theorem transactionsCommuteAndRepeat : Obligations.TransactionsCommuteAndRepeat := by
  refine ⟨fun r r' s hr hr' => ?commute, fun r s hr => ?repeated, fun s t => step_repeats⟩
  case commute =>
    obtain ⟨a, ha⟩ := exists_respond_eq_some hr
    obtain ⟨b, hb⟩ := exists_respond_eq_some hr'
    obtain ⟨u, hrun⟩ := runRequests_of_respond (rs := [r, r']) (out := [a, b]) (by simp [ha, hb]) s
    obtain ⟨u', hrun'⟩ := runRequests_of_respond (rs := [r', r]) (out := [b, a]) (by simp [ha, hb]) s
    exact ⟨u, u', a, b, hrun, hrun', ha, hb⟩
  case repeated =>
    obtain ⟨a, ha⟩ := exists_respond_eq_some hr
    obtain ⟨u, hrun⟩ := runRequests_of_respond (rs := [r, r]) (out := [a, a]) (by simp [ha]) s
    exact ⟨u, a, hrun, ha⟩

end Sys2Proof.Machine
end

section
/-! What each operation drives on the port, field by field: the command of a wire word, and the words that `REV8` and
`ENCODE` answer. -/

namespace Sys2Proof.Machine

/-- 41_fieldpack.md R72: on four bits the engine's reversal is the reversal of the vector. -/
theorem rev4_eq_reverse (v : BitVec 4) : rev4 v = v.reverse := by revert v; decide

theorem ofInt_natCast_toNat {n : Nat} (v : BitVec n) (k : Nat) : BitVec.ofInt k (v.toNat : Int) = v.setWidth k := by
  rw [BitVec.ofInt_natCast, BitVec.ofNat_toNat]

/-- A decoded temperature on the port: the reversed field, plus the offset in Celsius (43_decode.md R92, R97). -/
theorem ofInt_temperatureOf (u : Bool) (t : BitVec 4) :
    BitVec.ofInt 8 (temperatureOf (unitOfBit u) (rev4 t)) = t.reverse.setWidth 8 + (if u then 0 else 16) := by
  rw [rev4_eq_reverse]
  cases u with
  | false => simp [unitOfBit, temperatureOf, BitVec.ofInt_add]
  | true => simp [unitOfBit, temperatureOf]

/-- `cmd_out` of `DECODE`, from the fields of the operand (43_decode.md R97). -/
theorem portOfCommand_decodeWord (w : Word) :
    portOfCommand (decodeWord hardware w) =
      ⟨wirePower w, codeOfMode (modeDec (wireMode w)), (wireFan w).setWidth 8, wireSleep w,
        (wireTemp w).reverse.setWidth 8 + (if wireUnit w then 0 else 16), wireUnit w⟩ := by
  rw [decodeWord_eq_fields]
  simp only [portOfCommand, hardware, fanOrder, Bool.false_eq_true, if_false, ofInt_natCast_toNat, ofInt_temperatureOf,
    bitOfUnit_unitOfBit]

/-- A wire row drives its letters (43_decode.md R97). -/
theorem decodeTransaction_wireWord_port (m : BitVec 3) (p : Bool) (f : BitVec 2) (sl : Bool) (t : BitVec 4) (u : Bool)
    (x : Ignored) (s : State) :
    decodeTransaction (wireWord m p f sl t u x) s =
      .next (driveCommand s ⟨p, codeOfMode (modeDec m), f.setWidth 8, sl,
        t.reverse.setWidth 8 + (if u then 0 else 16), u⟩) := by
  simp only [decodeTransaction, portOfCommand_decodeWord, wireMode_wireWord, wirePower_wireWord, wireFan_wireWord,
    wireSleep_wireWord, wireTemp_wireWord, wireUnit_wireWord]

/-- 30_encoding.md R53: the codes of the modes are 0 to 4. -/
theorem toNat_codeOfMode_le (m : Mode) : (codeOfMode m).toNat ≤ 4 := by cases m <;> decide

/-- 43_decode.md R96: a decoded temperature is at most 15, and 16 more in Celsius. -/
theorem toNat_portTemperature (t : BitVec 4) (u : Bool) :
    (t.setWidth 8 + (if u then 0 else 16) : Byte).toNat = t.toNat + (if u then 0 else 16) := by
  have ht := t.isLt
  cases u <;> simp <;> omega

theorem legalCmdOut_decode (w : Word) : LegalCmdOut (portOfCommand (decodeWord hardware w)) := by
  have hfan := (wireFan w).isLt
  have htemp := (wireTemp w).reverse.isLt
  rw [portOfCommand_decodeWord]
  refine ⟨toNat_codeOfMode_le _, ?fan, ?temp, ?fahrenheit⟩
  case fan => rw [BitVec.toNat_setWidth]; omega
  case temp => rw [toNat_portTemperature]; split <;> omega
  case fahrenheit =>
    intro hunit
    rw [toNat_portTemperature, if_pos hunit]
    omega

theorem legalCmdOut_zeroCmd : LegalCmdOut zeroCmd := by decide

/-- 40_bitrev.md R62: the result of `REV8` is a byte. -/
theorem toNat_rev8Word_lt (w : Word) : (rev8Word w).toNat < 256 := by
  have h := (rev8 (w.setWidth 8)).isLt
  rw [rev8Word, BitVec.toNat_setWidth]
  omega

/-- 42_encode.md R88: the bits outside the fields are the base constant. -/
theorem encodeCommand_and_constMask (cfg : Config) (c : Command) : encodeCommand cfg c &&& constMask = base := by
  rw [encodeCommand_eq_wireWord]
  exact Laws.constBits ..

/-- What a word-driving operation must answer for legal outputs. -/
theorem legalOutputs_driveWord {w : Word} (s : State) (h : LegalWordOut w) : LegalOutputs (driveWord s w) :=
  ⟨legalCmdOut_zeroCmd, h, .inr rfl⟩

theorem legalOutputs_driveCommand {c : CmdPort} (s : State) (h : LegalCmdOut c) : LegalOutputs (driveCommand s c) :=
  ⟨h, .inl (Nat.zero_lt_succ 255), .inl rfl⟩

/-- Settles O43, select by select: a byte from `REV8`, the constant bits from `ENCODE`, ranges from `DECODE`. -/
theorem everyStepLeavesLegalOutputs : Obligations.EveryStepLeavesLegalOutputs := by
  intro s t hstep
  obtain hop | hop | hop | hop := op_cases s.op
  · obtain rfl : driveWord s _ = t := by simpa [step_of_op_rev8 hop] using hstep
    exact legalOutputs_driveWord s (.inl (toNat_rev8Word_lt _))
  · obtain rfl : driveWord s _ = t := by simpa [step_of_op_encode hop] using hstep
    exact legalOutputs_driveWord s (.inr (encodeCommand_and_constMask _ _))
  · obtain rfl : driveCommand s _ = t := by simpa [step_of_op_decode hop] using hstep
    exact legalOutputs_driveCommand s (legalCmdOut_decode _)
  · simp [step_of_op_reserved hop] at hstep

/-- Settles O26: each row is `DECODE` of its word, and `MODE_DEC` reads the row's pattern as its mode. -/
theorem modeRowsDeliverTheirMode : Obligations.ModeRowsDeliverTheirMode := by
  intro p f sl t u s out
  have row (m : BitVec 3) : decodeTransaction (wireWord m p f sl t u baseIgnored) s =
      .next (out (codeOfMode (modeDec m))) :=
    decodeTransaction_wireWord_port m p f sl t u baseIgnored s
  exact ⟨row 0b000, row 0b001, row 0b010, row 0b100, row 0b110⟩

end Sys2Proof.Machine
end

section
/-! `ENCODE` at the port (30_encoding.md R44): the fields of `word_out` as functions of `cmd_in`'s signals. -/

namespace Sys2Proof.Machine

/-- 30_encoding.md R46, R53, R55: the mode field that each port code writes. -/
theorem modeEnc_modeOfCode (code : BitVec 3) :
    modeEnc ((modeOfCode code).getD .auto) =
      if code = 1 then 0b100 else if code = 2 then 0b010 else if code = 3 then 0b110
      else if code = 4 then 0b001 else 0b000 := by
  revert code; decide

/-- 30_encoding.md R48: a fan speed that fits the field is written as it is, any other is dropped. -/
theorem fanField_port (v : Byte) : fanField false (v.toNat : Int) = if v.toNat ≤ 3 then v.setWidth 2 else 0 := by
  have hok : fanOk (v.toNat : Int) = true ↔ v.toNat ≤ 3 := by rw [fanOk_iff]; omega
  simp only [fanField, hok, fanOrder, Bool.false_eq_true, if_false, ofInt_natCast_toNat]

/-- The clamped magnitude of a port temperature, in natural numbers. -/
theorem celsiusMagnitude_natCast (n : Nat) : celsiusMagnitude (n : Int) = ((min (max n 16) 30 - 16 : Nat) : Int) := by
  obtain ⟨h, e⟩ | ⟨h, h', e⟩ | ⟨h, h', e⟩ := clamp_cases (n : Int) tempMin tempMax <;>
    simp only [celsiusMagnitude, e, tempMin, tempMax, tempBase] at * <;> omega

/-- 30_encoding.md R47: the temperature field is the reversed magnitude in Celsius and zero in Fahrenheit. -/
theorem tempField_port (u : Bool) (n : Nat) :
    tempField (unitOfBit u) (n : Int) = if u then 0 else rev4 (BitVec.ofNat 4 (min (max n 16) 30 - 16)) := by
  cases u with
  | false =>
    change rev4 (BitVec.ofInt 4 (celsiusMagnitude n)) = rev4 _
    rw [celsiusMagnitude_natCast, BitVec.ofInt_natCast]
  | true => rfl

theorem getLsbD_tempField_port (u : Bool) (n : Nat) {k : Nat} (hk : k < 4) :
    (tempField (unitOfBit u) (n : Int)).getLsbD k = (!u && (min (max n 16) 30 - 16).testBit (3 - k)) := by
  have h3 : 3 - k < 4 := by omega
  rw [tempField_port]
  cases u with
  | false => simp only [Bool.false_eq_true, if_false, getLsbD_rev4, BitVec.getLsbD_ofNat, hk, h3, decide_true,
      Bool.true_and, Bool.not_false]
  | true => simp

theorem getLsbD_wireTemp (w : Word) {k : Nat} (hk : k < 4) : (wireTemp w).getLsbD k = w.getLsbD (20 + k) := by
  simp [wireTemp, hk]

/-- `word_out` of `ENCODE`, assembled from the signals of `cmd_in` (42_encode.md R89). -/
theorem encodeCommand_commandOfPort (c : CmdPort) :
    encodeCommand hardware (commandOfPort c) =
      wireWord (modeEnc ((modeOfCode c.mode).getD .auto)) c.power (fanField false (c.fanSpeed.toNat : Int)) c.sleep
        (tempField (unitOfBit c.unit) (c.temperature.toNat : Int)) c.unit baseIgnored := by
  rw [encodeCommand_eq_wireWord]
  simp only [commandOfPort, hardware, bitOfUnit_unitOfBit]

/-- A range inside bits 19:5 of an assembled word is read from the ignored bits. -/
theorem extractLsb'_wireWord_ignored (m : BitVec 3) (p : Bool) (f : BitVec 2) (sl : Bool) (t : BitVec 4) (u : Bool)
    (x : Ignored) (off n : Nat) (h : off + n ≤ 15) :
    (wireWord m p f sl t u x).extractLsb' (5 + off) n = x.bits19to5.extractLsb' off n := by
  have hx : (wireWord m p f sl t u x).extractLsb' 5 15 = x.bits19to5 :=
    congrArg Ignored.bits19to5 (wireIgnored_wireWord m p f sl t u x)
  apply BitVec.eq_of_getLsbD_eq
  intro i hi
  rw [← hx]
  have h15 : off + i < 15 := by omega
  simp [hi, h15, Nat.add_assoc]

/-- Settles O16: `word_out` is an assembled word, and each clause reads one of its fields. -/
theorem encodeDrivesTheWireLayout : Obligations.EncodeDrivesTheWireLayout := by
  intro c s
  refine ⟨driveWord s (encodeCommand hardware (commandOfPort c)), rfl, ?_⟩
  rw [driveWord_wordOut, encodeCommand_commandOfPort]
  refine ⟨?mode, wirePower_wireWord .., ?fan, ?bit25, wireSleep_wireWord .., ?temp, ?bits19to11, ?bits10to9, ?bits8to5,
    wireUnit_wireWord .., ?bits3to0, rfl, rfl, rfl, rfl, rfl⟩
  case mode => exact (wireMode_wireWord ..).trans (modeEnc_modeOfCode _)
  case fan => exact (wireFan_wireWord ..).trans (fanField_port _)
  case bit25 => exact congrArg Ignored.bit25 (wireIgnored_wireWord ..)
  case temp =>
    intro k hk
    rw [← getLsbD_wireTemp _ hk, wireTemp_wireWord, getLsbD_tempField_port _ _ hk]
  case bits19to11 => exact (extractLsb'_wireWord_ignored _ _ _ _ _ _ _ 6 9 (by omega)).trans (by decide)
  case bits10to9 => exact (extractLsb'_wireWord_ignored _ _ _ _ _ _ _ 4 2 (by omega)).trans (by decide)
  case bits8to5 => exact (extractLsb'_wireWord_ignored _ _ _ _ _ _ _ 0 4 (by omega)).trans (by decide)
  case bits3to0 => exact congrArg Ignored.bits3to0 (wireIgnored_wireWord ..)

end Sys2Proof.Machine
end

section
/-! The decoder and the encoder of instructions are inverse to each other, and a step runs what the decoder reads
(30_encoding.md R51, log entries 2, 5 and 6). -/

namespace Sys2Proof

/-- The instruction that names a presented item, by its format. -/
def decodePresented : Presented → Instr
  | .request r => decodeRequest r
  | .wire w => decodeWire w

/-- The decoder undoes the packing of either format. -/
theorem decodeBits_encodeInstr (i : Instr) :
    decodeBits (encodeInstr i).nbits (encodeInstr i).bits = .ok (decodePresented (presentedOf i)) := by
  unfold encodeInstr
  cases presentedOf i with
  | request r => exact decodeBits_request r
  | wire w => exact decodeBits_wire w

theorem fahrenheitForm_eq_false_iff (t : BitVec 4) (u : Bool) : fahrenheitForm t u = false ↔ ¬ (t = 0 ∧ u = true) := by
  cases u <;> simp [fahrenheitForm]

theorem celsiusForm_eq_true_iff (t : BitVec 4) (u : Bool) : celsiusForm t u = true ↔ u = false ∧ t ≠ 15 := by
  simp [celsiusForm]

/-- 30_encoding.md R46, R50: the three patterns that no mode is assigned to. -/
theorem listedMode_eq_false_iff (m : BitVec 3) : listedMode m = false ↔ m = 3 ∨ m = 5 ∨ m = 7 := by
  revert m; decide

section Naming

variable (m : BitVec 3) (p : Bool) (f : BitVec 2) (sl : Bool) (t : BitVec 4) (u : Bool)

/-- The row that names a word whose ignored bits are not `ENCODE`'s. -/
theorem decodeWire_of_ignored_ne {x : Ignored} (hx : x ≠ baseIgnored) :
    decodeWire (wireWord m p f sl t u x) =
      if m = 3 then .decodeModeUnlisted011 p f sl t u x
      else if m = 5 then .decodeModeUnlisted101 p f sl t u x
      else if m = 7 then .decodeModeUnlisted111 p f sl t u x
      else .decodeAny m p f sl t u x := by
  simp only [decodeWire_wireWord, hx, and_false, false_and, if_false]

/-- The row that names a word with `ENCODE`'s ignored bits, where it is not `COMMAND_FAHRENHEIT`. -/
theorem decodeWire_of_not_fahrenheit (hF : fahrenheitForm t u = false) :
    decodeWire (wireWord m p f sl t u baseIgnored) =
      if m = 0 then .commandModeAuto p f sl t u
      else if m = 1 then .commandModeHeat p f sl t u
      else if m = 2 then .commandModeDry p f sl t u
      else if m = 4 then .commandModeCool p f sl t u
      else if m = 6 then .commandModeFan p f sl t u
      else if celsiusForm t u then .commandCelsius m p f sl t
      else .command m p f sl t u := by
  rw [fahrenheitForm_eq_false_iff] at hF
  simp only [decodeWire_wireWord, celsiusForm_eq_true_iff, hF, and_true, if_false, if_true]

/-- The row that names a word with `ENCODE`'s ignored bits and an unlisted mode. -/
theorem decodeWire_of_unlisted (hF : fahrenheitForm t u = false) (hm : listedMode m = false) :
    decodeWire (wireWord m p f sl t u baseIgnored) =
      if celsiusForm t u then .commandCelsius m p f sl t else .command m p f sl t u := by
  rw [decodeWire_of_not_fahrenheit m p f sl t u hF]
  obtain rfl | rfl | rfl := (listedMode_eq_false_iff m).mp hm <;> rfl

end Naming

/-- A well-formed instruction is the one that names its own presentation: no row before its own in the decoder's order
matches (log entry 2). -/
theorem decodePresented_presentedOf (i : Instr) (h : wellFormed i = true) : decodePresented (presentedOf i) = i := by
  cases i with
  | rev8 w => rfl
  | encode c => rfl
  | decode w => rfl
  | reservedOp3 => rfl
  | commandModeAuto p f sl t u | commandModeHeat p f sl t u | commandModeDry p f sl t u | commandModeCool p f sl t u
  | commandModeFan p f sl t u => exact decodeWire_of_not_fahrenheit _ p f sl t u (Bool.eq_false_of_not_eq_true' h)
  | decodeModeUnlisted011 p f sl t u x | decodeModeUnlisted101 p f sl t u x | decodeModeUnlisted111 p f sl t u x =>
    exact decodeWire_of_ignored_ne _ p f sl t u (bne_iff_ne.mp h)
  | decodeAny m p f sl t u x =>
    obtain ⟨hm, hx⟩ : listedMode m = true ∧ x ≠ baseIgnored := by simpa [wellFormed] using h
    have hne : ¬ (m = 3 ∨ m = 5 ∨ m = 7) := by rw [← listedMode_eq_false_iff, hm]; decide
    obtain ⟨h3, h5, h7⟩ : m ≠ 3 ∧ m ≠ 5 ∧ m ≠ 7 := by simpa only [not_or] using hne
    exact (decodeWire_of_ignored_ne m p f sl t u hx).trans (by rw [if_neg h3, if_neg h5, if_neg h7])
  | command m p f sl t u =>
    obtain ⟨⟨hm, hC⟩, hF⟩ : (listedMode m = false ∧ celsiusForm t u = false) ∧ fahrenheitForm t u = false := by
      simpa [wellFormed] using h
    exact (decodeWire_of_unlisted m p f sl t u hF hm).trans (by rw [hC]; rfl)
  | commandCelsius m p f sl t =>
    obtain ⟨hm, hC⟩ : listedMode m = false ∧ celsiusForm t false = true := by simpa [wellFormed] using h
    exact (decodeWire_of_unlisted m p f sl t false rfl hm).trans (if_pos hC)
  | commandFahrenheit m p f sl => exact (decodeWire_wireWord ..).trans (if_pos ⟨rfl, rfl, rfl⟩)

/-- Settles O52: the decoder undoes the packing, and a well-formed instruction names its own word. -/
theorem decodeOfEncodedInstruction : Obligations.DecodeOfEncodedInstruction := by
  intro i hwf
  rw [decodeBits_encodeInstr, decodePresented_presentedOf i hwf]

/-- Settles O55, row by row. -/
theorem everyInstructionMatchesItsRow : Obligations.EveryInstructionMatchesItsRow
  | .rev8 w => Laws.RowPattern.rev8 w
  | .encode c => Laws.RowPattern.encode c
  | .decode w => Laws.RowPattern.decode w
  | .reservedOp3 => Laws.RowPattern.reservedOp3
  | .command m p f sl t u => Laws.RowPattern.command m p f sl t u
  | .commandModeAuto p f sl t u => Laws.RowPattern.commandModeAuto p f sl t u
  | .commandModeHeat p f sl t u => Laws.RowPattern.commandModeHeat p f sl t u
  | .commandModeDry p f sl t u => Laws.RowPattern.commandModeDry p f sl t u
  | .commandModeCool p f sl t u => Laws.RowPattern.commandModeCool p f sl t u
  | .commandModeFan p f sl t u => Laws.RowPattern.commandModeFan p f sl t u
  | .decodeModeUnlisted011 p f sl t u x => Laws.RowPattern.decodeModeUnlisted011 p f sl t u x
  | .decodeModeUnlisted101 p f sl t u x => Laws.RowPattern.decodeModeUnlisted101 p f sl t u x
  | .decodeModeUnlisted111 p f sl t u x => Laws.RowPattern.decodeModeUnlisted111 p f sl t u x
  | .decodeAny m p f sl t u x => Laws.RowPattern.decodeAny m p f sl t u x
  | .commandCelsius m p f sl t => Laws.RowPattern.commandCelsius m p f sl t
  | .commandFahrenheit m p f sl => Laws.RowPattern.commandFahrenheit m p f sl

/-- What the decoder accepts: a string of exactly one of the two formats' lengths. -/
theorem decodeBits_eq_ok {nbits w : Nat} {i : Instr} (h : decodeBits nbits w = .ok i) :
    (nbits = wireBits ∧ decodeWire (BitVec.ofNat 32 w) = i) ∨
      (nbits = requestBits ∧ decodeRequest (unpackRequest (BitVec.ofNat 56 w)) = i) := by
  unfold decodeBits at h
  split at h
  · simp at h
  · split at h
    · next hwire => exact .inl ⟨hwire, Except.ok.inj h⟩
    · split at h
      · next hreq => exact .inr ⟨hreq, Except.ok.inj h⟩
      · simp at h

theorem decodeTableWord_eq_some_iff (nbits w : Nat) (i : Instr) :
    decodeTableWord nbits w = some i ↔ decodeBits (tableLength nbits) w = .ok i := by
  unfold decodeTableWord
  cases decodeBits (tableLength nbits) w <;> simp

end Sys2Proof

namespace Sys2Proof.Machine

@[simp] theorem fetch_present (s : State) (r : Request) : fetch (present s r) = decodeRequest r :=
  fetch_request _ rfl

@[simp] theorem fetch_presentWire (s : State) (w : Word) : fetch (presentWire s w) = decodeWire w :=
  fetch_wire _ rfl rfl

theorem withFetchWord_wire (s : State) {nbits : Nat} (w : Nat) (h : tableLength nbits = wireBits) :
    s.withFetchWord nbits w = presentWire s (BitVec.ofNat 32 w) :=
  if_pos h

theorem withFetchWord_request (s : State) {nbits : Nat} (w : Nat) (h : tableLength nbits = requestBits) :
    s.withFetchWord nbits w = present s (unpackRequest (BitVec.ofNat 56 w)) := by
  rw [State.withFetchWord, if_neg (by rw [h]; decide), if_pos h]

/-- Settles O51: the presentation chooses the format by the length that the decoder reads it by. -/
theorem presentedTableWordRunsNext : Obligations.PresentedTableWordRunsNext := by
  intro s nbits w i htable
  have hfetch : fetch (s.withFetchWord nbits w) = i := by
    obtain ⟨hlen, hi⟩ | ⟨hlen, hi⟩ := decodeBits_eq_ok ((decodeTableWord_eq_some_iff nbits w i).mp htable)
    · rw [withFetchWord_wire s w hlen, fetch_presentWire, hi]
    · rw [withFetchWord_request s w hlen, fetch_present, hi]
  exact ⟨hfetch, by rw [step, hfetch]⟩

/-- Settles O50: in either format the pending bits decode to what is fetched. -/
theorem stepRunsTheDecodedInstruction : Obligations.StepRunsTheDecodedInstruction := by
  refine fun s i _ => ⟨fun hformat hbits => ?request, fun hformat hop hbits => ?wire⟩
  case request =>
    rw [decodeBits_request] at hbits
    rw [step, fetch_request s hformat, Except.ok.inj hbits]
  case wire =>
    rw [decodeBits_wire] at hbits
    rw [step, fetch_wire s hformat hop, Except.ok.inj hbits]

end Sys2Proof.Machine
end

section
/-! What a step reads and what it leaves unchanged (30_encoding.md R52, R54, R56), the pseudo-operations (R59) and the
masks (R45). -/

namespace Sys2Proof.Machine

/-- 40_bitrev.md R62: `REV8` reads bits 7:0 of its operand. -/
theorem rev8Word_eq_extract (w : Word) : rev8Word w = (rev8 (w.extractLsb' 0 8)).setWidth 32 := by
  rw [rev8Word, ← BitVec.setWidth_eq_extractLsb' (show 8 ≤ 32 by decide)]

/-- The field mask clears the ignored bits and keeps the fields (30_encoding.md R45). -/
theorem wireWord_and_fieldMask (m : BitVec 3) (p : Bool) (f : BitVec 2) (sl : Bool) (t : BitVec 4) (u : Bool)
    (x : Ignored) : wireWord m p f sl t u x &&& fieldMask = wireWord m p f sl t u ⟨false, 0, 0⟩ := by
  apply BitVec.eq_of_getLsbD_eq
  intro i hi
  interval_cases i <;> simp [wireWord]

/-- 43_decode.md R95: `DECODE` reads the bits of `FIELD_MASK` and no others. -/
theorem decodeWord_and_fieldMask (cfg : Config) (w : Word) : decodeWord cfg (w &&& fieldMask) = decodeWord cfg w := by
  rw [← wireWord_fields w, wireWord_and_fieldMask]
  simp [decodeWord_eq_fields]

/-- A request's response depends on the select and on the input bits that its operation reads (30_encoding.md R56). -/
theorem respond_congr {r r' : Request} (hop : r.op = r'.op)
    (hrev : r.op = 0b00 → r.wordIn.extractLsb' 0 8 = r'.wordIn.extractLsb' 0 8)
    (henc : r.op = 0b01 → r.cmdIn = r'.cmdIn)
    (hdec : r.op = 0b10 → r.wordIn &&& fieldMask = r'.wordIn &&& fieldMask) : respond r = respond r' := by
  obtain h | h | h | h := op_cases r.op
  · have hword : rev8Word r.wordIn = rev8Word r'.wordIn := by simp only [rev8Word_eq_extract, hrev h]
    simp [respond, ← hop, h, hword]
  · simp [respond, ← hop, h, henc h]
  · have hcmd : decodeWord hardware r.wordIn = decodeWord hardware r'.wordIn := by
      rw [← decodeWord_and_fieldMask, hdec h, decodeWord_and_fieldMask]
    simp [respond, ← hop, h, hcmd]
  · simp [respond, ← hop, h]

/-- Where a step answers, its response is `respond` of the pending request, and conversely. -/
theorem respond_eq_some_iff (s : State) (a : PortResponse) :
    respond (requestNow s) = some a ↔ ∃ t, step s = .next t ∧ responseNow t = a := by
  obtain ⟨t, hstep, hresp⟩ | ⟨hnone, hstep⟩ := step_answers_respond s
  · simp [hstep, hresp]
  · simp [hstep, hnone]

/-- Settles O40: each select's result, and unread inputs have no effect because `respond` does not read them. -/
theorem stepDrivesTheSelectedResult : Obligations.StepDrivesTheSelectedResult := by
  refine ⟨fun s h => ?rev8, fun s h => step_of_op_encode h, fun s h => step_of_op_decode h, ?unread⟩
  case rev8 =>
    rw [step_of_op_rev8 h, rev8Word_eq_extract]
    rfl
  case unread =>
    intro s s' hop hrev henc hdec t hstep
    have hsame : respond (requestNow s) = respond (requestNow s') := respond_congr hop hrev henc hdec
    rw [← respond_eq_some_iff, ← hsame]
    exact (respond_eq_some_iff s _).mpr ⟨t, hstep, rfl⟩

/-- Settles O42: an instruction drives the outputs or is refused. -/
theorem noInstructionChangesTheInputs : Obligations.NoInstructionChangesTheInputs := by
  intro i s t hexec
  obtain ⟨w, hw⟩ | ⟨c, hc⟩ | ⟨-, href⟩ := exec_cases i s
  · obtain rfl : driveWord s w = t := by simpa [hw] using hexec
    exact ⟨rfl, rfl, rfl, rfl⟩
  · obtain rfl : driveCommand s c = t := by simpa [hc] using hexec
    exact ⟨rfl, rfl, rfl, rfl⟩
  · simp [href] at hexec

/-- Settles O38: whichever format names the pending item, select 3 is the reserved instruction. -/
theorem reservedSelectIsRefused : Obligations.ReservedSelectIsRefused :=
  ⟨fun _ => rfl, fun _ => step_of_op_reserved⟩

/-- 41_fieldpack.md R72: a `REV8` transaction leaves the reversed nibble in the byte's upper half. -/
theorem rev8Word_setWidth_shiftRight_four (v : BitVec 4) : rev8Word (v.setWidth 32) >>> 4 = (rev4 v).setWidth 32 := by
  revert v; decide

/-- 41_fieldpack.md R73: a `REV8` transaction leaves the reversed pair in the byte's top two bits. -/
theorem rev8Word_setWidth_shiftRight_six (v : BitVec 2) : rev8Word (v.setWidth 32) >>> 6 = (rev2 v).setWidth 32 := by
  revert v; decide

/-- Settles O37: `REV4` and `REV2` shift a `REV8` response down; the other two compose `ENCODE` and `DECODE`. -/
theorem pseudoOperationsAreTheirExpansions : Obligations.PseudoOperationsAreTheirExpansions :=
  ⟨fun v _ => ⟨_, rfl, rev8Word_setWidth_shiftRight_four v, rfl⟩,
    fun v _ => ⟨_, rfl, rev8Word_setWidth_shiftRight_six v, rfl⟩,
    fun cfg c => ⟨encodeCommand cfg c, rfl, rfl⟩, fun cfg w => ⟨decodeWord cfg w, rfl, rfl⟩⟩

/-- Settles O13: ten constants of the word. -/
theorem masksOfTheWireWord : Obligations.MasksOfTheWireWord := by
  refine ⟨?disjoint, ?union, ?constants, ?complement, rfl⟩
  all_goals decide

end Sys2Proof.Machine
end

section
/-! The bit reversal (40_bitrev.md): `REV8` is the reversal of a vector of eight bits, the three swap steps move bits within
the index, and a `REV8` transaction drives the reversal of the operand's low byte. -/

namespace Sys2Proof.Machine

/-! ## `REV8` as a reversal -/

/-- 40_bitrev.md R60, on vectors: `REV8` is the library's reversal. -/
theorem rev8_eq_reverse (x : Byte) : rev8 x = x.reverse := by
  apply BitVec.eq_of_getLsbD_eq
  intro i hi
  rw [getLsbD_rev8, BitVec.getLsbD_reverse, BitVec.getMsbD]

/-- 40_bitrev.md R60, at an index inside the byte. -/
theorem getLsbD_rev8_of_lt (x : Byte) {i : Nat} (h : i < 8) : (rev8 x).getLsbD i = x.getLsbD (7 - i) := by
  rw [getLsbD_rev8, decide_eq_true h, Bool.true_and]

theorem rev8_rev8 (x : Byte) : rev8 (rev8 x) = x := by
  rw [rev8_eq_reverse, rev8_eq_reverse, BitVec.reverse_reverse_eq]

/-- 41_fieldpack.md R73: on two bits the engine's reversal is the reversal of the vector. -/
theorem rev2_eq_reverse (v : BitVec 2) : rev2 v = v.reverse := by revert v; decide

/-- 40_bitrev.md R62, bit by bit: the low byte is reversed, the bits above it are zero. -/
theorem getLsbD_rev8Word (w : Word) (i : Nat) : (rev8Word w).getLsbD i = (decide (i < 8) && w.getLsbD (7 - i)) := by
  have hbyte : i < 8 → i < 32 := by omega
  have hindex : 7 - i < 8 := by omega
  simp only [rev8Word, BitVec.getLsbD_setWidth, getLsbD_rev8, hindex, decide_true, Bool.true_and]
  by_cases h : i < 8 <;> simp [h, hbyte]

/-! ## The three swap steps -/

/-- The step moves every bit of a byte to the index that differs from its own in the bits of `m`. -/
def FlipsIndex (step : Byte → Byte) (m : Nat) : Prop := ∀ (x : Byte) (i : Nat), (step x).getLsbD i = x.getLsbD (i ^^^ m)

section FlipsIndex

variable {f g : Byte → Byte} {m n : Nat}

/-- Flipping low index bits keeps an index inside the byte, so only the eight indices inside it need a look. -/
theorem flipsIndex_of_forall_lt (hm : m < 8) (h : ∀ x i, i < 8 → (f x).getLsbD i = x.getLsbD (i ^^^ m)) :
    FlipsIndex f m := by
  intro x i
  by_cases hi : i < 8
  · exact h x i hi
  · have hflip : ¬ i ^^^ m < 8 := fun hlt =>
      hi (by simpa [Nat.xor_assoc] using Nat.xor_lt_two_pow (n := 3) hlt hm)
    rw [BitVec.getLsbD_of_ge _ _ (Nat.le_of_not_lt hi), BitVec.getLsbD_of_ge _ _ (Nat.le_of_not_lt hflip)]

theorem FlipsIndex.comp (hg : FlipsIndex g n) (hf : FlipsIndex f m) : FlipsIndex (fun x => g (f x)) (n ^^^ m) := by
  intro x i
  rw [hg, hf, Nat.xor_assoc]

/-- The mask determines the step. -/
theorem FlipsIndex.eq (hf : FlipsIndex f m) (hg : FlipsIndex g m) (x : Byte) : f x = g x :=
  BitVec.eq_of_getLsbD_eq fun i _ => by rw [hf, hg]

theorem FlipsIndex.commute (hf : FlipsIndex f m) (hg : FlipsIndex g n) (x : Byte) : f (g x) = g (f x) :=
  (hf.comp hg).eq (Nat.xor_comm n m ▸ hg.comp hf) x

end FlipsIndex

theorem flipsIndex_swapBits : FlipsIndex swapBits 1 := by
  refine flipsIndex_of_forall_lt (by decide) fun x i hi => ?_
  interval_cases i <;> simp [swapBits]

theorem flipsIndex_swapPairs : FlipsIndex swapPairs 2 := by
  refine flipsIndex_of_forall_lt (by decide) fun x i hi => ?_
  interval_cases i <;> simp [swapPairs]

theorem flipsIndex_swapNibbles : FlipsIndex swapNibbles 4 := by
  refine flipsIndex_of_forall_lt (by decide) fun x i hi => ?_
  interval_cases i <;> simp [swapNibbles]

theorem flipsIndex_rev8 : FlipsIndex rev8 7 := by
  refine flipsIndex_of_forall_lt (by decide) fun x i hi => ?_
  rw [getLsbD_rev8_of_lt x hi]
  interval_cases i <;> rfl

/-- 40_bitrev.md R61: together the three steps flip every bit of the index. -/
theorem rev8Swap_eq_rev8 (x : Byte) : rev8Swap x = rev8 x :=
  (flipsIndex_swapNibbles.comp (flipsIndex_swapPairs.comp flipsIndex_swapBits)).eq flipsIndex_rev8 x

theorem exists_flipsIndex_of_mem {f : Byte → Byte} (h : f ∈ [swapBits, swapPairs, swapNibbles]) :
    ∃ m, FlipsIndex f m := by
  obtain rfl | rfl | rfl : f = swapBits ∨ f = swapPairs ∨ f = swapNibbles := by simpa using h
  · exact ⟨1, flipsIndex_swapBits⟩
  · exact ⟨2, flipsIndex_swapPairs⟩
  · exact ⟨4, flipsIndex_swapNibbles⟩

/-- Settles O2: steps that flip index bits commute, so every order gives what the spec's own order gives. -/
theorem swapStepsInAnyOrderReverse : Obligations.SwapStepsInAnyOrderReverse := by
  refine ⟨rev8Swap_eq_rev8, fun steps hperm x => ?anyOrder⟩
  have hcomm : ∀ f ∈ steps, ∀ g ∈ steps, ∀ y : Byte, g (f y) = f (g y) := by
    intro f hf g hg y
    obtain ⟨m, hm⟩ := exists_flipsIndex_of_mem (hperm.subset hf)
    obtain ⟨n, hn⟩ := exists_flipsIndex_of_mem (hperm.subset hg)
    exact hn.commute hm y
  rw [hperm.foldl_eq' hcomm x]
  exact rev8Swap_eq_rev8 x

/-! ## The operand and the result on 32 bits -/

theorem rev8Word_and_byteMask (w : Word) : rev8Word (w &&& 0xFF) = rev8Word w := by
  have hlow : (w &&& 0xFF).setWidth 8 = w.setWidth 8 := by
    rw [BitVec.setWidth_and]
    exact BitVec.and_allOnes
  rw [rev8Word, hlow, rev8Word]

/-- 40_bitrev.md R63 (e), on words: `REV8` of a `k`-bit field is the field's reversal at the top of the byte. -/
theorem rev8Word_setWidth {k : Nat} (hk : k ≤ 8) (v : BitVec k) :
    rev8Word (v.setWidth 32) = v.reverse.setWidth 32 <<< (8 - k) := by
  apply BitVec.eq_of_getLsbD_eq
  intro i hi
  simp only [getLsbD_rev8Word, BitVec.getLsbD_shiftLeft, BitVec.getLsbD_setWidth, BitVec.getLsbD_reverse, BitVec.getMsbD]
  by_cases h8 : i < 8
  · by_cases hlow : i < 8 - k
    · have hout : k ≤ 7 - i := by omega
      simp [hlow, BitVec.getLsbD_of_ge v _ hout]
    · have hidx : k - 1 - (i - (8 - k)) = 7 - i := by omega
      have hin : i - (8 - k) < k := by omega
      have h7 : 7 - i < 32 := by omega
      have h32 : i - (8 - k) < 32 := by omega
      simp [hi, h8, hlow, hidx, hin, h7, h32]
  · have hout : ¬ i - (8 - k) < k := by omega
    simp [h8, hout]

/-- 40_bitrev.md R63 (e), on bytes. -/
theorem rev8_setWidth {k : Nat} (hk : k ≤ 8) (v : BitVec k) :
    rev8 (v.setWidth 8) = v.reverse.setWidth 8 <<< (8 - k) := by
  have hword := congrArg (BitVec.setWidth 8) (rev8Word_setWidth hk v)
  simpa [rev8Word, BitVec.setWidth_shiftLeft_of_le, BitVec.setWidth_setWidth_of_le] using hword

/-- Settles O3: the word that `REV8` drives, bit by bit, and at the widths of the codec's own operands. -/
theorem rev8IgnoresBitsAboveSeven : Obligations.Rev8IgnoresBitsAboveSeven := by
  refine ⟨fun v s => ?masked, fun v s => ⟨_, rfl, ?high, fun i hi => ?low⟩, fun s => ⟨_, rfl, ?fixed⟩,
    fun v => ?nibble, fun v => ?pair⟩
  case masked =>
    change execRev8 v s = execRev8 (v &&& 0xFF) s
    rw [execRev8, execRev8, rev8Word_and_byteMask]
  case high =>
    apply BitVec.eq_of_getLsbD_eq
    intro i hi
    simp [getLsbD_rev8Word]
  case low => simp [getLsbD_rev8Word, hi]
  case fixed =>
    rw [driveWord_wordOut]
    decide
  case nibble => rw [rev4_eq_reverse, rev8Word_setWidth (by decide)]
  case pair => rw [rev2_eq_reverse, rev8Word_setWidth (by decide)]

/-! ## The laws -/

/-- `7 - i` runs through the eight indices as `i` does. -/
theorem map_seven_sub_range_perm : ((List.range 8).map (7 - ·)).Perm (List.range 8) := by decide

/-- 40_bitrev.md R63 (d). -/
theorem countP_getLsbD_rev8 (x : Byte) :
    (List.range 8).countP (fun i => (rev8 x).getLsbD i) = (List.range 8).countP (fun i => x.getLsbD i) := by
  calc (List.range 8).countP (fun i => (rev8 x).getLsbD i)
      = (List.range 8).countP (fun i => x.getLsbD (7 - i)) :=
        List.countP_congr fun i hi => by rw [getLsbD_rev8_of_lt x (List.mem_range.mp hi)]
    _ = ((List.range 8).map (7 - ·)).countP (fun i => x.getLsbD i) := List.countP_map.symm
    _ = (List.range 8).countP (fun i => x.getLsbD i) := map_seven_sub_range_perm.countP_eq _

/-- 40_bitrev.md R60: the bytes that read the same in both directions. -/
theorem rev8_eq_self_iff (x : Byte) :
    rev8 x = x ↔ x.toNat ∈ [0x00, 0x18, 0x24, 0x3C, 0x42, 0x5A, 0x66, 0x7E, 0x81, 0x99, 0xA5, 0xBD, 0xC3, 0xDB, 0xE7,
      0xFF] := by
  revert x
  decide +kernel

/-- 40_bitrev.md R63 (e), for a byte that fits `k` bits. -/
theorem rev8_of_toNat_lt {k : Nat} {v : Byte} (hk : k ≤ 8) (hv : v.toNat < 2 ^ k) :
    rev8 v = (v.setWidth k).reverse.setWidth 8 <<< (8 - k) := by
  have hfit : (v.setWidth k).setWidth 8 = v := by
    apply BitVec.eq_of_toNat_eq
    rw [BitVec.toNat_setWidth, BitVec.toNat_setWidth, Nat.mod_eq_of_lt hv, Nat.mod_eq_of_lt v.isLt]
  rw [← rev8_setWidth hk, hfit]

/-- Settles O4: each law from R60 bit by bit, or from the reversal of vectors. -/
theorem rev8Laws : Obligations.Rev8Laws := by
  refine ⟨rev8_rev8, Function.Involutive.bijective rev8_rev8, rev8_eq_self_iff, fun a b => ?or, fun a b => ?and,
    fun a => ?not, countP_getLsbD_rev8, fun k v hk hv => rev8_of_toNat_lt hk hv⟩
  case or | and | not =>
    apply BitVec.eq_of_getLsbD_eq
    intro i hi
    have hindex : 7 - i < 8 := by omega
    simp only [BitVec.getLsbD_or, BitVec.getLsbD_and, BitVec.getLsbD_not, getLsbD_rev8_of_lt, hi, hindex, decide_true,
      Bool.true_and]

/-! ## The contract as a sum -/

/-- The low bits of a number, summed with their weights. -/
theorem mod_two_pow_eq_sum_testBit (x n : Nat) :
    x % 2 ^ n = ((List.range n).map fun i => (x.testBit i).toNat * 2 ^ i).sum := by
  induction n with
  | zero => simp [Nat.mod_one]
  | succ n ih =>
    rw [Nat.mod_pow_succ, ih, List.range_succ, List.map_append, List.sum_append, ← Nat.toNat_testBit, Nat.mul_comm]
    simp

theorem toNat_eq_sum_getLsbD {n : Nat} (x : BitVec n) :
    x.toNat = ((List.range n).map fun i => (x.getLsbD i).toNat * 2 ^ i).sum := by
  rw [← Nat.mod_eq_of_lt x.isLt, mod_two_pow_eq_sum_testBit]
  simp [BitVec.testBit_toNat]

/-- 40_bitrev.md R60, as the sum: the bits keep their values and exchange their weights. -/
theorem toNat_rev8 (x : Byte) :
    (rev8 x).toNat = ((List.range 8).map fun i => (x.getLsbD i).toNat * 2 ^ (7 - i)).sum := by
  calc (rev8 x).toNat
      = ((List.range 8).map fun i => ((rev8 x).getLsbD i).toNat * 2 ^ i).sum := toNat_eq_sum_getLsbD _
    _ = (((List.range 8).map (7 - ·)).map fun i => (x.getLsbD i).toNat * 2 ^ (7 - i)).sum := by
        rw [List.map_map]
        refine congrArg List.sum (List.map_congr_left fun i hi => ?_)
        have h8 : i < 8 := List.mem_range.mp hi
        have h7 : 7 - (7 - i) = i := by omega
        simp only [Function.comp_apply, getLsbD_rev8_of_lt x h8, h7]
    _ = ((List.range 8).map fun i => (x.getLsbD i).toNat * 2 ^ (7 - i)).sum :=
        (map_seven_sub_range_perm.map _).sum_eq

/-- Settles O1: the transaction is `execRev8`; the contract is `getLsbD_rev8` and its sum. -/
theorem rev8ReversesTheByte : Obligations.Rev8ReversesTheByte := by
  refine ⟨fun w s => ?transaction, fun x i hi => getLsbD_rev8_of_lt x hi, toNat_rev8, ?values⟩
  case transaction =>
    rw [← rev8Word_eq_extract]
    rfl
  case values => decide

end Sys2Proof.Machine
end

section
/-! The shift-and-mask operations of the field engine (41_fieldpack.md): extraction reads its field alone, an insertion ORs
into its field alone, so insertions commute and a disjoint one does not affect an extraction. -/

namespace Sys2Proof.Machine

section Field

variable (w v : Word) {off n off' n' : Nat}

/-! ## Extraction -/

/-- 41_fieldpack.md R67, as a number. -/
theorem toNat_fext (off n : Nat) : (fext w off n).toNat = w.toNat / 2 ^ off % 2 ^ n := by
  rw [fext, BitVec.toNat_setWidth, BitVec.toNat_ushiftRight, Nat.shiftRight_eq_div_pow]

/-- A bit of the result is the field's. -/
theorem getLsbD_fext_of_lt {k : Nat} (hk : k < n) : (fext w off n).getLsbD k = w.getLsbD (off + k) := by
  rw [getLsbD_fext, decide_eq_true hk, Bool.true_and]

/-- 41_fieldpack.md R67: two extractions agree exactly when the two fields do, bit by bit. -/
theorem fext_eq_fext_iff : fext w off n = fext v off' n ↔ ∀ k < n, w.getLsbD (off + k) = v.getLsbD (off' + k) := by
  constructor
  · intro h k hk
    rw [← getLsbD_fext_of_lt w hk, h, getLsbD_fext_of_lt v hk]
  · intro h
    apply BitVec.eq_of_getLsbD_eq
    intro k hk
    rw [getLsbD_fext_of_lt w hk, getLsbD_fext_of_lt v hk, h k hk]

/-! ## Insertion -/

/-- 41_fieldpack.md R68, bit by bit, for a field inside the word. -/
theorem getLsbD_fins_of_le (h : off + n ≤ 32) (i : Nat) :
    (fins w off n v).getLsbD i = (w.getLsbD i || (decide (off ≤ i ∧ i < off + n) && v.getLsbD (i - off))) := by
  have hword : i < off + n → i < 32 := by omega
  rw [getLsbD_fins]
  by_cases hfield : i < off + n <;> simp [hfield, hword]

/-- A bit that lies outside the field stays. -/
theorem getLsbD_fins_of_outside {i : Nat} (h : i < off ∨ off + n ≤ i) : (fins w off n v).getLsbD i = w.getLsbD i := by
  obtain hbelow | habove := h
  · simp [getLsbD_fins, Nat.not_le.mpr hbelow]
  · simp [getLsbD_fins, Nat.not_lt.mpr habove]

/-- A bit of the field is ORed with the value's. -/
theorem getLsbD_fins_inside (h : off + n ≤ 32) {k : Nat} (hk : k < n) :
    (fins w off n v).getLsbD (off + k) = (w.getLsbD (off + k) || v.getLsbD k) := by
  simp [getLsbD_fins_of_le w v h, hk]

@[simp] theorem fins_zero (off n : Nat) : fins w off n 0 = w := by
  simp [fins]

/-! ## Bit set -/

/-- 41_fieldpack.md R69, bit by bit, for a bit of the word. -/
theorem getLsbD_bset_of_lt (b : Bool) {i : Nat} (hi : i < 32) (j : Nat) :
    (bset w i b).getLsbD j = (w.getLsbD j || (b && decide (j = i))) := by
  rw [getLsbD_bset]
  by_cases hj : j = i <;> simp [hj, hi]

/-- 41_fieldpack.md R69: a bit set is an insertion into the field of that one bit. -/
theorem bset_eq_fins (b : Bool) {i : Nat} (hi : i < 32) : bset w i b = fins w i 1 ((BitVec.ofBool b).setWidth 32) := by
  apply BitVec.eq_of_getLsbD_eq
  intro j _
  rw [getLsbD_bset_of_lt w b hi]
  by_cases hj : j = i
  · have hset := getLsbD_fins_inside w ((BitVec.ofBool b).setWidth 32) hi Nat.zero_lt_one
    simpa [hj] using hset.symm
  · rw [getLsbD_fins_of_outside w _ (by omega), decide_eq_false hj, Bool.and_false, Bool.or_false]

/-! ## Two insertions, an insertion and an extraction -/

/-- 41_fieldpack.md R77 (a): insertion is an OR, so the order has no effect, not even where the fields overlap. -/
theorem fins_comm (v' : Word) : fins (fins w off n v) off' n' v' = fins (fins w off' n' v') off n v := by
  simp only [fins]
  ac_rfl

/-- 41_fieldpack.md R77 (d): extracting a field is not affected by an insertion into bits beside it. -/
theorem fext_fins_of_disjoint (h : off + n ≤ off' ∨ off' + n' ≤ off) : fext (fins w off n v) off' n' = fext w off' n' :=
  (fext_eq_fext_iff _ _).mpr fun _ _ => getLsbD_fins_of_outside w v (by omega)

/-- 41_fieldpack.md R77 (c): into zero bits, OR is replacement. -/
theorem fext_fins_of_fext_eq_zero (hfit : off + n ≤ 32) (hzero : fext w off n = 0) :
    fext (fins w off n v) off n = v.setWidth n := by
  apply BitVec.eq_of_getLsbD_eq
  intro k hk
  have hclear : w.getLsbD (off + k) = false := by
    rw [← getLsbD_fext_of_lt w hk, hzero]
    exact BitVec.getLsbD_zero
  rw [getLsbD_fext_of_lt _ hk, getLsbD_fins_inside w v hfit hk, hclear, Bool.false_or, BitVec.getLsbD_setWidth,
    decide_eq_true hk, Bool.true_and]

end Field

/-! ## The obligations -/

/-- Settles O6: a bit of the field is `off + k` for some `k` below the width. -/
theorem extractReadsTheFieldAlone : Obligations.ExtractReadsTheFieldAlone := by
  refine ⟨fun w off n _ _ => ⟨toNat_fext w off n, fext_eq_extract w off n⟩, fun w v off n _ _ hagree => ?alone, ?value⟩
  case alone => exact (fext_eq_fext_iff w v).mpr fun k hk => hagree (off + k) (by omega) (by omega)
  case value => decide

/-- Settles O7: the insertion bit by bit. -/
theorem insertOrsIntoTheField : Obligations.InsertOrsIntoTheField := by
  refine ⟨fun w v off n i _ hfit => getLsbD_fins_of_le w v hfit i, fun w off n => fins_zero w off n, ?value⟩
  case value => decide

/-- Settles O8: a bit set is an OR of one bit, as a one-bit insertion is. -/
theorem bitSetIsOneBitInsert : Obligations.BitSetIsOneBitInsert := by
  refine ⟨fun w i b hi => bset_eq_fins w b hi, fun w i b hi j => getLsbD_bset_of_lt w b hi j, fun w i => rfl, ?value⟩
  case value => decide

/-- Settles O14: three laws of an insertion, of which the first needs no field inside the word. -/
theorem disjointInsertionsAreIndependent : Obligations.DisjointInsertionsAreIndependent := by
  intro w v v' off n off' n' _ hfit _ _
  exact ⟨fins_comm w v v', fext_fins_of_disjoint w v, fext_fins_of_fext_eq_zero w v hfit⟩

end Sys2Proof.Machine
end

section
/-! The clamp and the offset, the mode tables, the fan guard and the narrow reversals (41_fieldpack.md), each with what
`ENCODE` and `DECODE` make of it, and the wire rows of an unlisted mode. -/

namespace Sys2Proof.Machine

/-! ## Clamp and offset -/

/-- On a range that is not empty, the clamp is the lattice expression, from which its laws follow. -/
theorem clamp_eq_max_min {lo hi : Int} (h : lo ≤ hi) (v : Int) : clamp v lo hi = max lo (min v hi) := by
  obtain ⟨hv, e⟩ | ⟨hv, hv', e⟩ | ⟨hv, hv', e⟩ := clamp_cases v lo hi <;> omega

/-- Settles O9: each clause is one of `max lo (min v hi)`. -/
theorem clampForcesIntoTheRange : Obligations.ClampForcesIntoTheRange := by
  refine ⟨fun v lo hi h => ?range, fun v v' lo hi h hv => ?monotone, ?corners⟩
  case range =>
    simp only [clamp_eq_max_min h]
    refine ⟨?_, ?_, ?_, ?_, ?_, ?_⟩ <;> omega
  case monotone =>
    rw [clamp_eq_max_min h, clamp_eq_max_min h]
    exact max_le_max le_rfl (min_le_min hv le_rfl)
  case corners => decide

/-- 41_fieldpack.md R71 in one expression: the offset is the unit's. -/
theorem temperatureOf_eq_add (unit : TempUnit) (t : BitVec 4) :
    temperatureOf unit t = (t.toNat : Int) + (if unit = .celsius then 16 else 0) := by
  cases unit with
  | celsius => rfl
  | fahrenheit => exact (Int.add_zero _).symm

/-- A magnitude of four bits comes back as 16 to 31 (41_fieldpack.md R71). -/
theorem temperatureOf_celsius_range (t : BitVec 4) :
    16 ≤ temperatureOf .celsius t ∧ temperatureOf .celsius t ≤ 31 := by
  have ht := t.isLt
  rw [temperatureOf_eq_add, if_pos rfl]
  omega

/-- 42_encode.md R82. -/
theorem stepTemp_celsius {c : Command} (h : c.unit = .celsius) (w : Word) :
    stepTemp c w = fins w tempOff tempN ((rev4 (BitVec.ofInt 4 (celsiusMagnitude c.temperature))).setWidth 32) := by
  rw [stepTemp_eq_fins, h]
  rfl

/-- 42_encode.md R83. -/
theorem stepTemp_fahrenheit {c : Command} (h : c.unit = .fahrenheit) (w : Word) : stepTemp c w = w := by
  rw [stepTemp_eq_fins, h]
  exact fins_zero w tempOff tempN

/-- Settles O10: the offset on the way in is `stepTemp`'s, on the way out `temperatureOf`'s. -/
theorem temperatureOffsetInCelsiusOnly : Obligations.TemperatureOffsetInCelsiusOnly := by
  refine ⟨fun v => ?magnitude, fun t => ?decoded, fun c w h => stepTemp_celsius h w, fun c w h => stepTemp_fahrenheit h w,
    fun cfg w => ?decode, ⟨0x00F00000, ?fifteen⟩, ?values⟩
  case magnitude =>
    obtain ⟨hlo, hhi⟩ := celsiusMagnitude_range v
    exact ⟨hlo, hhi, rfl⟩
  case decoded =>
    obtain ⟨hlo, hhi⟩ := temperatureOf_celsius_range t
    exact ⟨rfl, hlo, hhi, rfl⟩
  case decode =>
    rw [decodeWord_eq_fields]
    exact temperatureOf_eq_add _ _
  case fifteen => decide
  case values => decide

/-! ## Mode tables -/

/-- 41_fieldpack.md R75: the three unlisted patterns do not come back. -/
theorem modeEnc_modeDec (p : BitVec 3) : modeEnc (modeDec p) = if p = 3 ∨ p = 5 ∨ p = 7 then 0 else p := by
  revert p; decide

/-- 30_encoding.md R55: codes 5 to 7 stand for no mode. -/
theorem modeOfCode_of_five_le {code : BitVec 3} (h : 5 ≤ code.toNat) : modeOfCode code = none := by
  revert code; decide

/-- Settles O11: `MODE_ENC` is injective because `MODE_DEC` undoes it. -/
theorem modeTables : Obligations.ModeTables := by
  refine ⟨rfl, rfl, Function.LeftInverse.injective modeDec_modeEnc, modeDec_modeEnc, modeEnc_modeDec, fun c hc => ?port⟩
  case port =>
    change modeEnc ((modeOfCode c.mode).getD .auto) = 0
    rw [modeOfCode_of_five_le hc]
    rfl

/-! ## Fan guard -/

/-- The bits above the field are zero exactly for the values that fit it. -/
theorem extractLsb'_two_six_eq_zero_iff (v : Byte) : v.extractLsb' 2 6 = 0 ↔ v.toNat ≤ 3 := by
  have hv := v.isLt
  rw [← BitVec.toNat_inj, BitVec.extractLsb'_toNat, Nat.shiftRight_eq_div_pow]
  change v.toNat / 4 % 64 = 0 ↔ v.toNat ≤ 3
  omega

/-- A fan speed outside 0 to 3 is dropped, at both orders of the field (41_fieldpack.md R76). -/
theorem fext_encodeCommand_fan_eq_zero (cfg : Config) {c : Command} (h : fanOk c.fanSpeed = false) :
    fext (encodeCommand cfg c) 26 2 = 0 := by
  have hfield : fanField cfg.encFanRev c.fanSpeed = 0 := by rw [fanField, h, if_neg Bool.false_ne_true]
  rw [encodeCommand_eq_wireWord, hfield, fext_eq_extract]
  exact wireFan_wireWord ..

/-- Settles O12: the guard on integers, on the port's byte, and what `ENCODE` writes where it fails. -/
theorem fanGuard : Obligations.FanGuard := by
  refine ⟨fun f => ?integer, fun c => ?port, rfl, fun cfg c => ⟨?four, ?five, ?seven⟩⟩
  case integer => rw [Bool.eq_iff_iff, fanOk_iff, decide_eq_true_iff]
  case port =>
    rw [Bool.eq_iff_iff, fanOk_iff, decide_eq_true_iff, extractLsb'_two_six_eq_zero_iff]
    change 0 ≤ (c.fanSpeed.toNat : Int) ∧ (c.fanSpeed.toNat : Int) ≤ 3 ↔ _
    omega
  case four | five | seven => exact fext_encodeCommand_fan_eq_zero cfg rfl

/-! ## Narrow reversals -/

/-- 41_fieldpack.md R72: the nibbles that read the same in both directions. -/
theorem rev4_eq_self_iff (v : BitVec 4) : rev4 v = v ↔ v.toNat ∈ [0, 6, 9, 15] := by
  revert v; decide

/-- The reversed nibble lies at the top of the byte, so nothing is below it. -/
theorem rev8_setWidth_low_nibble (v : BitVec 4) : (rev8 (v.setWidth 8)).extractLsb' 0 4 = 0 := by
  rw [rev8_setWidth (by decide)]
  apply BitVec.eq_of_getLsbD_eq
  intro i hi
  simp [hi]

/-- Settles O5: a shift down and a cut is an extraction; the rest is the reversal of vectors. -/
theorem narrowReversals : Obligations.NarrowReversals := by
  refine ⟨fun v => ⟨BitVec.setWidth_ushiftRight_eq_extractLsb, rev8_setWidth_low_nibble v, fun i hi => ?nibbleBits,
    rev4_rev4 v, rev4_eq_self_iff v⟩,
    fun v => ⟨BitVec.setWidth_ushiftRight_eq_extractLsb, fun i hi => ?pairBits, rev2_rev2 v⟩, ?values, ?eight⟩
  case nibbleBits => rw [getLsbD_rev4, decide_eq_true hi, Bool.true_and]
  case pairBits => rw [rev2_eq_reverse, BitVec.getLsbD_reverse, BitVec.getMsbD, decide_eq_true hi, Bool.true_and]
  case values => decide
  case eight => decide

/-! ## The wire rows of an unlisted mode -/

/-- Settles O27: each row is `DECODE` of its word, and `MODE_DEC` reads an unlisted pattern as Auto. -/
theorem unlistedModeRowsDeliverAuto : Obligations.UnlistedModeRowsDeliverAuto := by
  intro p f sl t u x s out
  have row (m : BitVec 3) (hauto : modeDec m = .auto) : decodeTransaction (wireWord m p f sl t u x) s = .next out := by
    rw [decodeTransaction_wireWord_port, hauto]
    rfl
  exact ⟨row 0b011 rfl, row 0b101 rfl, row 0b111 rfl⟩

end Sys2Proof.Machine
end

section
/-! `ENCODE` as an OR of contributions (42_encode.md R80): each step ORs one contribution into the word, so the steps commute
(R87), and the fields of the word determine the command up to the normalisations of 44_laws.md R107. -/

namespace Sys2Proof.Machine

/-! ## The contribution of each step -/

/-- 41_fieldpack.md R68 for a value as wide as its field: the mask of the insertion has no effect. -/
theorem fins_setWidth (w : Word) (off : Nat) {n : Nat} (v : BitVec n) :
    fins w off n (v.setWidth 32) = w ||| v.setWidth 32 <<< off := by
  have hmask : v.setWidth 32 &&& BitVec.ofNat 32 (2 ^ n - 1) = v.setWidth 32 := by
    apply BitVec.eq_of_getLsbD_eq
    intro i hi
    rw [BitVec.getLsbD_and, getLsbD_lowMask, BitVec.getLsbD_setWidth]
    by_cases hn : i < n
    · simp [hi, hn]
    · simp [BitVec.getLsbD_of_ge v i (Nat.le_of_not_lt hn)]
  rw [fins, hmask]

/-- 41_fieldpack.md R69: a bit set ORs in that bit or nothing. -/
theorem bset_eq_or (w : Word) (i : Nat) (b : Bool) : bset w i b = w ||| (if b then (1 : Word) <<< i else 0) := by
  cases b with
  | false => exact BitVec.or_zero.symm
  | true => rfl

section Step

variable (cfg : Config) (c : Command) (w : Word)

/-- 42_encode.md R82, R83. -/
theorem stepTemp_eq_or : stepTemp c w = w ||| (if c.unit = .celsius then
    (rev4 (BitVec.ofInt 4 (clamp c.temperature 16 30 - 16))).setWidth 32 <<< 20 else 0) := by
  cases h : c.unit with
  | celsius =>
    rw [stepTemp_celsius h, fins_setWidth, if_pos rfl]
    rfl
  | fahrenheit =>
    rw [stepTemp_fahrenheit h, if_neg (by decide)]
    exact BitVec.or_zero.symm

/-- 42_encode.md R84. -/
theorem stepPower_eq_or : stepPower c w = w ||| (if c.power then (1 : Word) <<< 28 else 0) := bset_eq_or w powerBit c.power

/-- 42_encode.md R84. -/
theorem stepUnit_eq_or : stepUnit c w = w ||| (if c.unit = .fahrenheit then (1 : Word) <<< 4 else 0) := by
  rw [stepUnit, bset_eq_or]
  cases c.unit with
  | celsius => rfl
  | fahrenheit => rfl

/-- 42_encode.md R84. -/
theorem stepSleep_eq_or : stepSleep c w = w ||| (if c.sleep then (1 : Word) <<< 24 else 0) := bset_eq_or w sleepBit c.sleep

/-- 42_encode.md R85. -/
theorem stepMode_eq_or : stepMode c w = w ||| (modeEnc c.mode).setWidth 32 <<< 29 := fins_setWidth w modeOff _

/-- 42_encode.md R86. -/
theorem stepFan_eq_or : stepFan cfg c w = w ||| (if 0 ≤ c.fanSpeed ∧ c.fanSpeed ≤ 3 then
    (fanOrder cfg.encFanRev (BitVec.ofInt 2 c.fanSpeed)).setWidth 32 <<< 26 else 0) := by
  simp only [stepFan, fins_setWidth, fanOk_iff]
  split
  · rfl
  · exact BitVec.or_zero.symm

/-- 42_encode.md R80: the contributions, regrouped in the order of the rule's expression. -/
theorem encodeCommand_eq_or : encodeCommand cfg c =
    base ||| ((modeEnc c.mode).setWidth 32 <<< 29) ||| (if c.power then (1 : Word) <<< 28 else 0) |||
      (if 0 ≤ c.fanSpeed ∧ c.fanSpeed ≤ 3 then
        (fanOrder cfg.encFanRev (BitVec.ofInt 2 c.fanSpeed)).setWidth 32 <<< 26 else 0) |||
      (if c.sleep then (1 : Word) <<< 24 else 0) |||
      (if c.unit = .celsius then (rev4 (BitVec.ofInt 4 (clamp c.temperature 16 30 - 16))).setWidth 32 <<< 20 else 0) |||
      (if c.unit = .fahrenheit then (1 : Word) <<< 4 else 0) := by
  have regroup (t p u s m f : Word) :
      base ||| t ||| p ||| u ||| s ||| m ||| f = base ||| m ||| p ||| f ||| s ||| t ||| u := by ac_rfl
  rw [encodeCommand, stepFan_eq_or, stepMode_eq_or, stepSleep_eq_or, stepUnit_eq_or, stepPower_eq_or, stepTemp_eq_or]
  exact regroup ..

end Step

/-- `ENCODE` at the port (42_encode.md R89). -/
theorem exec_encode (c : CmdPort) (s : State) :
    exec (.encode c) s = .next (driveWord s (encodeCommand hardware (commandOfPort c))) := rfl

/-- The expression of 42_encode.md R80 counts a set bit as a natural number. -/
theorem natCast_ite_shiftLeft (p : Prop) [Decidable p] (i : Nat) :
    ((if p then 1 <<< i else 0 : Nat) : Word) = if p then (1 : Word) <<< i else 0 := by
  split
  · apply BitVec.eq_of_toNat_eq
    simp
  · rfl

/-- Settles O15: the expression is the OR of the six contributions over the base constant. -/
theorem encodeIsTheOrOfItsFields : Obligations.EncodeIsTheOrOfItsFields := by
  refine ⟨exec_encode, fun cfg c => ?expression, fun f => rfl, ?value⟩
  case expression =>
    simp only [natCast_ite_shiftLeft]
    exact encodeCommand_eq_or cfg c
  case value => decide

/-! ## The steps in any order -/

/-- A step of `ENCODE` ORs a contribution into the word, the same one whatever the word (42_encode.md R87). -/
def OrsContribution (step : Word → Word) : Prop := ∃ k, ∀ w, step w = w ||| k

theorem OrsContribution.commute {f g : Word → Word} (hf : OrsContribution f) (hg : OrsContribution g) (w : Word) :
    f (g w) = g (f w) := by
  obtain ⟨k, hk⟩ := hf
  obtain ⟨l, hl⟩ := hg
  rw [hk, hl, hl, hk]
  ac_rfl

section Steps

variable (cfg : Config) (c : Command)

theorem orsContribution_of_mem_encodeSteps {step : Word → Word} (h : step ∈ encodeSteps cfg c) :
    OrsContribution step := by
  simp only [encodeSteps, List.mem_cons, List.not_mem_nil, or_false] at h
  obtain rfl | rfl | rfl | rfl | rfl | rfl := h
  · exact ⟨_, stepTemp_eq_or c⟩
  · exact ⟨_, stepPower_eq_or c⟩
  · exact ⟨_, stepUnit_eq_or c⟩
  · exact ⟨_, stepSleep_eq_or c⟩
  · exact ⟨_, stepMode_eq_or c⟩
  · exact ⟨_, stepFan_eq_or cfg c⟩

/-- 42_encode.md R87: steps that commute give one word in every order. -/
theorem foldl_encodeSteps_of_perm {steps : List (Word → Word)} (h : steps.Perm (encodeSteps cfg c)) :
    steps.foldl (fun w step => step w) base = encodeCommand cfg c := by
  have hors (step) (hstep : step ∈ steps) : OrsContribution step :=
    orsContribution_of_mem_encodeSteps cfg c (h.mem_iff.mp hstep)
  exact h.foldl_eq' (fun f hf g hg w => (hors g hg).commute (hors f hf) w) base

/-! ## What the word does not hold -/

/-- 42_encode.md R83: the temperature field of a Fahrenheit command. -/
theorem wireTemp_encodeCommand_fahrenheit (h : c.unit = .fahrenheit) :
    wireTemp (encodeCommand cfg c) = 0 := by
  rw [encodeCommand_eq_wireWord, wireTemp_wireWord, h]
  rfl

/-- 42_encode.md R83: a Fahrenheit temperature is not read. -/
theorem encodeCommand_fahrenheit_temperature (h : c.unit = .fahrenheit) (temperature : Int) :
    encodeCommand cfg c = encodeCommand cfg { c with temperature := temperature } := by
  simp only [encodeCommand_eq_wireWord, h, tempField]

theorem wireUnit_encodeCommand : wireUnit (encodeCommand cfg c) = bitOfUnit c.unit := by
  rw [encodeCommand_eq_wireWord, wireUnit_wireWord]

end Steps

/-- Settles O17: the temperature field is 0 whatever the temperature, and the worked example is one of its words. -/
theorem fahrenheitTemperatureIsNotWritten : Obligations.FahrenheitTemperatureIsNotWritten := by
  refine ⟨fun cfg c temperature h => ⟨encodeCommand_fahrenheit_temperature cfg c h temperature,
    wireTemp_encodeCommand_fahrenheit cfg c h, ?unitBit⟩, fun temperature => ?value⟩
  case unitBit =>
    have hunit := wireUnit_encodeCommand cfg c
    rwa [h] at hunit
  case value =>
    have hzero : encodeCommand hardware ⟨true, .cool, 2, false, 0, .fahrenheit⟩ = 0x98000612 := by decide
    exact (encodeCommand_fahrenheit_temperature hardware _ rfl 0).trans hzero

/-- 30_encoding.md R55: a code that stands for no mode is taken as code 0 is (log entry 7). -/
theorem commandOfPort_of_five_le {c : CmdPort} (h : 5 ≤ c.mode.toNat) :
    commandOfPort c = commandOfPort { c with mode := 0 } := by
  simp only [commandOfPort, modeOfCode_of_five_le h]
  rfl

/-! ## When two words are equal -/

section Normalisation

variable (cfg : Config) (c : Command)

/-- 44_laws.md R107: a decoder that reads the fan field in the order in which it was written delivers `NORM`. -/
theorem decodeWord_encodeCommand {reader : Config} (h : reader.decFanRev = cfg.encFanRev) :
    decodeWord reader (encodeCommand cfg c) = normalForm c := by
  rw [encodeCommand_eq_wireWord, decodeWord_eq_fields]
  simp only [wireMode_wireWord, wirePower_wireWord, wireFan_wireWord, wireSleep_wireWord, wireTemp_wireWord,
    wireUnit_wireWord, modeDec_modeEnc, unitOfBit_bitOfUnit, h, toNat_fanOrder_fanField, temperatureOf_rev4_tempField,
    normalForm]

/-- 42_encode.md R86: a dropped fan speed writes the field of fan speed 0. -/
theorem fanField_ite_fanOk (reversed : Bool) (f : Int) : fanField reversed (if fanOk f then f else 0) =
    fanField reversed f := by
  split
  · rfl
  · next hdropped =>
    rw [fanField, fanField, if_neg hdropped]
    cases reversed <;> decide

/-- 41_fieldpack.md R70: a second clamp has no effect. -/
theorem celsiusMagnitude_clamp (v : Int) : celsiusMagnitude (clamp v tempMin tempMax) = celsiusMagnitude v := by
  have hrange : tempMin ≤ tempMax := by decide
  simp only [celsiusMagnitude, clamp_eq_max_min hrange]
  omega

/-- 42_encode.md R82, R83: what is kept of a temperature writes the field of the temperature. -/
theorem tempField_keptTemperature (unit : TempUnit) (v : Int) :
    tempField unit (keptTemperature unit v) = tempField unit v := by
  cases unit with
  | celsius => simp only [tempField, keptTemperature, celsiusMagnitude_clamp]
  | fahrenheit => rfl

/-- 44_laws.md R107: what `NORM` changes, `ENCODE` does not read. -/
theorem encodeCommand_normalForm : encodeCommand cfg (normalForm c) = encodeCommand cfg c := by
  simp only [encodeCommand_eq_wireWord, normalForm, fanField_ite_fanOk, tempField_keptTemperature]

/-- 42_encode.md R87. -/
theorem encodeCommand_eq_iff (c' : Command) :
    encodeCommand cfg c = encodeCommand cfg c' ↔ normalForm c = normalForm c' := by
  constructor
  · intro h
    have hread : (Config.mk false cfg.encFanRev).decFanRev = cfg.encFanRev := rfl
    rw [← decodeWord_encodeCommand cfg c hread, h, decodeWord_encodeCommand cfg c' hread]
  · intro h
    rw [← encodeCommand_normalForm, h, encodeCommand_normalForm]

end Normalisation

/-- Settles O20: the steps commute, an unlisted port code is taken as Auto, and `DECODE` of equal words gives `NORM` of both
commands. -/
theorem encodeStepsInAnyOrder : Obligations.EncodeStepsInAnyOrder := by
  refine ⟨fun cfg c steps h => foldl_encodeSteps_of_perm cfg c h, fun cfg c h => ?fahrenheit,
    fun c s h => ⟨?code, ?pattern⟩, encodeCommand_eq_iff⟩
  case fahrenheit =>
    exact ⟨wireTemp_encodeCommand_fahrenheit cfg c h, encodeCommand_fahrenheit_temperature cfg c h 0⟩
  case code =>
    rw [exec_encode, exec_encode, commandOfPort_of_five_le h]
  case pattern =>
    rw [encodeCommand_commandOfPort, modeOfCode_of_five_le h]
    exact wireMode_wireWord ..

end Sys2Proof.Machine
end

section
/-! The port and the typed level (00_scope.md R16): a typed command whose integers are bytes survives its port form, so a
request at the port has the port form of the typed response. -/

namespace Sys2Proof.Machine

theorem fitsPort_encode_iff (c : Command) :
    fitsPort (.encode c) = true ↔ (0 ≤ c.fanSpeed ∧ c.fanSpeed ≤ 255) ∧ (0 ≤ c.temperature ∧ c.temperature ≤ 255) := by
  simp [fitsPort, and_assoc]

/-- An integer in 0 to 255 is carried by a byte as it is (42_encode.md R89). -/
theorem toNat_ofInt_byte {v : Int} (h : 0 ≤ v ∧ v ≤ 255) : ((BitVec.ofInt 8 v).toNat : Int) = v := by
  rw [BitVec.toNat_ofInt]
  omega

/-- 30_encoding.md R53, 42_encode.md R89: the port carries a command whose integers fit. -/
theorem commandOfPort_portOfCommand {c : Command} (h : fitsPort (.encode c) = true) :
    commandOfPort (portOfCommand c) = c := by
  obtain ⟨hfan, htemp⟩ := (fitsPort_encode_iff c).mp h
  simp only [commandOfPort, portOfCommand, modeOfCode_codeOfMode, Option.getD_some, unitOfBit_bitOfUnit,
    toNat_ofInt_byte hfan, toNat_ofInt_byte htemp]

/-- The response to a typed transaction's request is its typed response in port form (30_encoding.md R56). -/
theorem respond_requestOfTransaction {tr : Transaction} (h : fitsPort tr = true) :
    respond (requestOfTransaction tr) = some (portOfResponse (transact hardware tr)) := by
  cases tr with
  | rev8 x => rfl
  | encode c =>
    simp [respond, requestOfTransaction, commandOfPort_portOfCommand h, transact, portOfResponse]
  | decode w => rfl

/-- Settles O47: a step drives `respond` of the request presented, in every state. -/
theorem portRefinesTheTypedLevel : Obligations.PortRefinesTheTypedLevel :=
  fun _ s h => step_present_of_respond (respond_requestOfTransaction h) s

end Sys2Proof.Machine
end

section
/-! Every wire word has a row of its own, and the row that names it decides only the name (43_decode.md R90, log entries 1
and 2). -/

namespace Sys2Proof

/-! ## The row that names a wire word -/

/-- The instruction is the word's own: its row names the word (log entry 2), and its letters spell the word. -/
def NamesWord (i : Instr) (w : Word) : Prop := wellFormed i = true ∧ presentedOf i = .wire w

theorem NamesWord.encodeInstr_eq {i : Instr} {w : Word} (h : NamesWord i w) : encodeInstr i = ⟨32, w.toNat⟩ := by
  obtain ⟨-, hspells⟩ := h
  rw [encodeInstr, hspells]
  rfl

/-- The own instruction of a word as a choice between two. -/
theorem namesWord_ite {c : Prop} [Decidable c] {i j : Instr} {w : Word} (hpos : c → NamesWord i w)
    (hneg : ¬ c → NamesWord j w) : NamesWord (if c then i else j) w :=
  iteInduction (motive := (NamesWord · w)) hpos hneg

/-- 30_encoding.md R46, R50: a pattern is listed exactly when it is none of the three unlisted ones. -/
theorem listedMode_eq_true_iff (m : BitVec 3) : listedMode m = true ↔ m ≠ 3 ∧ m ≠ 5 ∧ m ≠ 7 := by
  revert m; decide

/-- 30_encoding.md R46: the five patterns that a mode is assigned to. -/
theorem listedMode_cases {m : BitVec 3} (h : listedMode m = true) : m = 0 ∨ m = 1 ∨ m = 2 ∨ m = 4 ∨ m = 6 := by
  revert m; decide

section Naming

variable (m : BitVec 3) (p : Bool) (f : BitVec 2) (sl : Bool) (t : BitVec 4) (u : Bool)

/-- The word's ignored bits are not `ENCODE`'s: one row for each unlisted mode, `DECODE_ANY` for the others. -/
theorem namesWord_of_ignored_ne {x : Ignored} (hx : x ≠ baseIgnored) :
    NamesWord (decodeWire (wireWord m p f sl t u x)) (wireWord m p f sl t u x) := by
  have hign : (x != baseIgnored) = true := bne_iff_ne.mpr hx
  rw [decodeWire_of_ignored_ne m p f sl t u hx]
  refine namesWord_ite ?unlisted011 fun h3 => namesWord_ite ?unlisted101 fun h5 => namesWord_ite ?unlisted111 fun h7 => ?any
  case unlisted011 | unlisted101 | unlisted111 => rintro rfl; exact ⟨hign, rfl⟩
  case any =>
    have hlisted : listedMode m = true := (listedMode_eq_true_iff m).mpr ⟨h3, h5, h7⟩
    exact ⟨Bool.and_eq_true_iff.mpr ⟨hlisted, hign⟩, rfl⟩

/-- `ENCODE`'s ignored bits with the unit Fahrenheit and the temperature zero: `COMMAND_FAHRENHEIT`. -/
theorem namesWord_of_fahrenheit (hF : fahrenheitForm t u = true) :
    NamesWord (decodeWire (wireWord m p f sl t u baseIgnored)) (wireWord m p f sl t u baseIgnored) := by
  obtain ⟨rfl, rfl⟩ : u = true ∧ t = 0 := by simpa [fahrenheitForm] using hF
  rw [decodeWire_wireWord, if_pos ⟨rfl, rfl, rfl⟩]
  exact ⟨rfl, rfl⟩

/-- `ENCODE`'s ignored bits with a listed mode: the row of that mode. -/
theorem namesWord_of_listed (hF : fahrenheitForm t u = false) (hm : listedMode m = true) :
    NamesWord (decodeWire (wireWord m p f sl t u baseIgnored)) (wireWord m p f sl t u baseIgnored) := by
  have hwf : (!fahrenheitForm t u) = true := by rw [hF]; rfl
  rw [decodeWire_of_not_fahrenheit m p f sl t u hF]
  obtain rfl | rfl | rfl | rfl | rfl := listedMode_cases hm
  all_goals exact ⟨hwf, rfl⟩

/-- `ENCODE`'s ignored bits with an unlisted mode: `COMMAND_CELSIUS` where its note holds, `COMMAND` elsewhere. -/
theorem namesWord_of_unlisted (hF : fahrenheitForm t u = false) (hm : listedMode m = false) :
    NamesWord (decodeWire (wireWord m p f sl t u baseIgnored)) (wireWord m p f sl t u baseIgnored) := by
  rw [decodeWire_of_unlisted m p f sl t u hF hm]
  refine namesWord_ite (fun hC => ?celsius) fun hC => ?command
  case celsius =>
    obtain rfl : u = false := ((celsiusForm_eq_true_iff t u).mp hC).1
    exact ⟨by simp only [wellFormed, hm, hC, Bool.not_false, Bool.and_self], rfl⟩
  case command =>
    exact ⟨by simp only [wellFormed, hm, hF, Bool.eq_false_of_not_eq_true hC, Bool.not_false, Bool.and_self], rfl⟩

end Naming

/-- No word is without a row, and no bit of it is dropped: the ignored bits, then the Fahrenheit form, then the mode decide
the row (43_decode.md R90). -/
theorem namesWord_decodeWire (w : Word) : NamesWord (decodeWire w) w := by
  rw [← wireWord_fields w]
  by_cases hx : wireIgnored w = baseIgnored
  · rw [hx]
    cases hF : fahrenheitForm (wireTemp w) (wireUnit w) with
    | true => exact namesWord_of_fahrenheit _ _ _ _ _ _ hF
    | false =>
      cases hm : listedMode (wireMode w) with
      | true => exact namesWord_of_listed _ _ _ _ _ _ hF hm
      | false => exact namesWord_of_unlisted _ _ _ _ _ _ hF hm
  · exact namesWord_of_ignored_ne _ _ _ _ _ _ hx

/-- Settles O53: the decoder gives each word the instruction that names it, whose bits are the word. -/
theorem encodeOfDecodedWireWord : Obligations.EncodeOfDecodedWireWord := by
  intro w
  have hnames := namesWord_decodeWire w
  exact ⟨hnames.1, hnames.encodeInstr_eq, decodeBits_wire w⟩

/-! ## The meaning of a word does not depend on its row -/

theorem wellFormed_decodeRequest (r : Request) : wellFormed (decodeRequest r) = true := by
  unfold decodeRequest
  split
  · rfl
  · split
    · rfl
    · split <;> rfl

theorem wellFormed_decodePresented (x : Presented) : wellFormed (decodePresented x) = true := by
  cases x with
  | request r => exact wellFormed_decodeRequest r
  | wire w => exact (namesWord_decodeWire w).1

/-- What an instruction's own presentation decodes to has its meaning: a request is decoded back to it, and every wire row
is `DECODE` of its word (log entry 1). -/
theorem exec_decodePresented_presentedOf (i : Instr) (s : Machine.State) :
    Machine.exec (decodePresented (presentedOf i)) s = Machine.exec i s := by
  cases i with
  | rev8 w => rfl
  | encode c => rfl
  | decode w => rfl
  | reservedOp3 => rfl
  | command | commandModeAuto | commandModeHeat | commandModeDry | commandModeCool | commandModeFan
  | decodeModeUnlisted011 | decodeModeUnlisted101 | decodeModeUnlisted111 | decodeAny | commandCelsius
  | commandFahrenheit => exact Machine.exec_decodeWire _ s

/-- Settles O54: an instruction's bits decode to the row that names its presentation. -/
theorem overlappingRowsMeanTheSame : Obligations.OverlappingRowsMeanTheSame := fun i =>
  ⟨decodePresented (presentedOf i), decodeBits_encodeInstr i, wellFormed_decodePresented _,
    exec_decodePresented_presentedOf i⟩

end Sys2Proof
end

section
/-! `DECODE` at the port (43_decode.md R95, R97): the bits it reads, and `cmd_out` signal by signal, for the operand's word
and for the rows whose mode field is free. -/

namespace Sys2Proof.Machine

/-! ## The bits that `DECODE` reads -/

/-- 43_decode.md R95: words that agree on the bits of `FIELD_MASK` decode alike. -/
theorem decodeWord_congr (cfg : Config) {w v : Word} (h : w &&& fieldMask = v &&& fieldMask) :
    decodeWord cfg w = decodeWord cfg v := by
  rw [← decodeWord_and_fieldMask cfg w, h, decodeWord_and_fieldMask]

/-- 30_encoding.md R45: the twenty bits outside `FIELD_MASK`. -/
theorem getLsbD_fieldMask_eq_false {i : Nat}
    (h : i ∈ [25, 19, 18, 17, 16, 15, 14, 13, 12, 11, 10, 9, 8, 7, 6, 5, 3, 2, 1, 0]) : fieldMask.getLsbD i = false := by
  revert i; decide

/-- A mask hides a difference in one bit that it clears. -/
theorem and_eq_and_of_getLsbD_eq {n : Nat} {w v mask : BitVec n} {i : Nat} (hmask : mask.getLsbD i = false)
    (h : ∀ j, j ≠ i → w.getLsbD j = v.getLsbD j) : w &&& mask = v &&& mask := by
  apply BitVec.eq_of_getLsbD_eq
  intro j _
  rw [BitVec.getLsbD_and, BitVec.getLsbD_and]
  by_cases hj : j = i
  · rw [hj, hmask, Bool.and_false, Bool.and_false]
  · rw [h j hj]

/-- `DECODE` at the port (43_decode.md R97). -/
theorem exec_decode (w : Word) (s : State) :
    exec (.decode w) s = .next (driveCommand s (portOfCommand (decodeWord hardware w))) := rfl

/-- Settles O22: each clause is that `DECODE` reads through `FIELD_MASK`. -/
theorem decodeReadsFieldBitsOnly : Obligations.DecodeReadsFieldBitsOnly := by
  refine ⟨fun cfg w => (decodeWord_and_fieldMask cfg w).symm, fun w s => ?transaction, fun cfg w v i hi h => ?oneBit,
    ?zeros, ?ones⟩
  case transaction => rw [exec_decode, exec_decode, decodeWord_and_fieldMask]
  case oneBit => exact decodeWord_congr cfg (and_eq_and_of_getLsbD_eq (getLsbD_fieldMask_eq_false hi) h)
  case zeros => decide
  case ones => decide

/-! ## The command on the port -/

/-- 30_encoding.md R46, R53: the port code of what `MODE_DEC` reads from a pattern. -/
theorem codeOfMode_modeDec (m : BitVec 3) :
    codeOfMode (modeDec m) =
      if m = 0b001 then 4 else if m = 0b010 then 2 else if m = 0b100 then 1 else if m = 0b110 then 3 else 0 := by
  revert m; decide

/-- The reversed temperature field as a number: the field's highest bit has weight 1 (43_decode.md R92). -/
theorem toNat_reverse_wireTemp (w : Word) :
    (wireTemp w).reverse.toNat =
      (w.getLsbD 23).toNat + 2 * (w.getLsbD 22).toNat + 4 * (w.getLsbD 21).toNat + 8 * (w.getLsbD 20).toNat := by
  have hsum (v : BitVec 4) : v.reverse.toNat = (v.getLsbD 3).toNat + 2 * (v.getLsbD 2).toNat +
      4 * (v.getLsbD 1).toNat + 8 * (v.getLsbD 0).toNat := by revert v; decide
  simp only [hsum, getLsbD_wireTemp, Nat.reduceLT, Nat.reduceAdd]

/-- Settles O24: `cmd_out` is assembled from the fields of the operand, and it is legal. -/
theorem decodeDrivesTheCommand : Obligations.DecodeDrivesTheCommand := by
  intro w s
  obtain ⟨hmode, hfan, htemp, -⟩ := legalCmdOut_decode w
  refine ⟨driveCommand s (portOfCommand (decodeWord hardware w)), exec_decode w s, ?_⟩
  rw [driveCommand_cmdOut]
  rw [portOfCommand_decodeWord] at hmode hfan htemp ⊢
  refine ⟨codeOfMode_modeDec _, hmode, rfl, rfl, hfan, rfl, ?temperature, htemp, rfl, rfl, rfl, rfl, rfl, rfl⟩
  rw [toNat_portTemperature, toNat_reverse_wireTemp]
  rfl

/-- Settles O28: each row is `DECODE` of its word; `COMMAND_CELSIUS` and `COMMAND_FAHRENHEIT` fix the unit. -/
theorem generalRowsDeliverTheirFields : Obligations.GeneralRowsDeliverTheirFields := by
  intro m p f sl t u x s mode out
  have row (t : BitVec 4) (u : Bool) (x : Ignored) : decodeTransaction (wireWord m p f sl t u x) s =
      .next (out (t.reverse.setWidth 8 + (if u then 0 else 16)) u) := by
    rw [decodeTransaction_wireWord_port, codeOfMode_modeDec]
    rfl
  exact ⟨row t u baseIgnored, row t u x, row t false baseIgnored, row 0 true baseIgnored⟩

end Sys2Proof.Machine
end

section
/-! The results of `DECODE` (43_decode.md R96): their ranges, that every command in range is one, and the list of them. -/

namespace Sys2Proof.Machine

/-! ## The lists of commands -/

theorem intsFrom_eq_map (lo : Int) (n : Nat) : intsFrom lo n = (List.range n).map fun k : Nat => lo + (k : Int) := by
  have hcast : (do let k ← List.range n; pure (k : Int)) = (List.range n).map fun k : Nat => (k : Int) :=
    List.flatMap_pure_eq_map _ _
  rw [intsFrom, hcast, List.map_map]
  rfl

theorem mem_intsFrom (lo v : Int) (n : Nat) : v ∈ intsFrom lo n ↔ lo ≤ v ∧ v < lo + n := by
  simp only [intsFrom_eq_map, List.mem_map, List.mem_range]
  constructor
  · rintro ⟨k, hk, rfl⟩
    omega
  · rintro ⟨hlo, hhi⟩
    exact ⟨(v - lo).toNat, by omega, by omega⟩

theorem nodup_intsFrom (lo : Int) (n : Nat) : (intsFrom lo n).Nodup := by
  rw [intsFrom_eq_map]
  exact List.nodup_range.map fun a b h => by omega

theorem length_intsFrom (lo : Int) (n : Nat) : (intsFrom lo n).length = n := by
  rw [intsFrom_eq_map, List.length_map, List.length_range]

theorem mem_bools (b : Bool) : b ∈ bools := by cases b <;> decide

theorem mem_modes (m : Mode) : m ∈ modes := by cases m <;> decide

section CommandsWith

variable (unit : TempUnit) (temperatures : List Int)

theorem mem_commandsWith (c : Command) :
    c ∈ commandsWith unit temperatures ↔
      (0 ≤ c.fanSpeed ∧ c.fanSpeed ≤ 3) ∧ c.temperature ∈ temperatures ∧ c.unit = unit := by
  obtain ⟨power, mode, fanSpeed, sleep, temperature, unit'⟩ := c
  have hfan : fanSpeed ∈ intsFrom 0 4 ↔ 0 ≤ fanSpeed ∧ fanSpeed ≤ 3 := by
    rw [mem_intsFrom]
    omega
  simp only [commandsWith, List.mem_flatMap, List.mem_map, Command.mk.injEq]
  constructor
  · rintro ⟨_, -, _, -, _, hf, _, -, _, ht, rfl, rfl, rfl, rfl, rfl, rfl⟩
    exact ⟨hfan.mp hf, ht, rfl⟩
  · rintro ⟨hf, ht, rfl⟩
    exact ⟨power, mem_bools power, mode, mem_modes mode, fanSpeed, hfan.mpr hf, sleep, mem_bools sleep, temperature, ht,
      rfl, rfl, rfl, rfl, rfl, rfl⟩

/-- Lists that a key tells apart make one list without repeats. -/
theorem nodup_flatMap_of_key {α β : Type} {l : List α} {f : α → List β} (key : β → α) (hl : l.Nodup)
    (hkey : ∀ a, ∀ b ∈ f a, key b = a) (hf : ∀ a, (f a).Nodup) : (l.flatMap f).Nodup := by
  refine List.nodup_flatMap.mpr ⟨fun a _ => hf a, hl.imp fun {a a'} hne => ?_⟩
  exact fun b hb hb' => hne ((hkey a b hb).symm.trans (hkey a' b hb'))

/-- Each field of a command is a key of the list over its values. -/
theorem nodup_commandsWith (h : temperatures.Nodup) : (commandsWith unit temperatures).Nodup := by
  refine nodup_flatMap_of_key Command.power (by decide) ?power fun power => nodup_flatMap_of_key Command.mode (by decide)
    ?mode fun mode => nodup_flatMap_of_key Command.fanSpeed (nodup_intsFrom 0 4) ?fan fun fan =>
    nodup_flatMap_of_key Command.sleep (by decide) ?sleep fun sleep => ?temperature
  case temperature => exact h.map fun v v' hv => congrArg Command.temperature hv
  all_goals simp only [List.mem_flatMap, List.mem_map]
  case power => rintro power _ ⟨_, -, _, -, _, -, _, -, rfl⟩; rfl
  case mode => rintro mode _ ⟨_, -, _, -, _, -, rfl⟩; rfl
  case fan => rintro fan _ ⟨_, -, _, -, rfl⟩; rfl
  case sleep => rintro sleep _ ⟨_, -, rfl⟩; rfl

/-- Two powers, five modes, four fan speeds and two sleeps for each temperature. -/
theorem length_commandsWith : (commandsWith unit temperatures).length = 80 * temperatures.length := by
  simp only [commandsWith, List.length_flatMap, List.length_map, List.map_const', List.sum_replicate, length_intsFrom,
    smul_eq_mul, show bools.length = 2 from rfl, show modes.length = 5 from rfl]
  omega

end CommandsWith

/-! ## The range of `DECODE` -/

/-- The lowest temperature that `DECODE` delivers in a unit; the highest is 15 above it (43_decode.md R96). -/
def lowestTemperature : TempUnit → Int
  | .celsius => 16
  | .fahrenheit => 0

/-- The ranges of 43_decode.md R96. -/
def InDecodeRange (c : Command) : Prop :=
  (0 ≤ c.fanSpeed ∧ c.fanSpeed ≤ 3) ∧
    lowestTemperature c.unit ≤ c.temperature ∧ c.temperature < lowestTemperature c.unit + 16

/-- The values that a temperature field can stand for, each of which some field does. -/
theorem exists_temperatureOf_rev4_eq_iff (unit : TempUnit) (v : Int) :
    (∃ t, temperatureOf unit (rev4 t) = v) ↔ lowestTemperature unit ≤ v ∧ v < lowestTemperature unit + 16 := by
  have hadd (t : BitVec 4) : temperatureOf unit t = (t.toNat : Int) + lowestTemperature unit := by
    rw [temperatureOf_eq_add]
    cases unit <;> rfl
  constructor
  · rintro ⟨t, rfl⟩
    have hlt := (rev4 t).isLt
    rw [hadd]
    omega
  · rintro ⟨hlo, hhi⟩
    refine ⟨rev4 (BitVec.ofInt 4 (v - lowestTemperature unit)), ?_⟩
    rw [rev4_rev4, hadd, BitVec.toNat_ofInt]
    omega

theorem inDecodeRange_decodeWord (cfg : Config) (w : Word) : InDecodeRange (decodeWord cfg w) := by
  have hfan := (fanOrder cfg.decFanRev (wireFan w)).isLt
  rw [decodeWord_eq_fields]
  refine ⟨?fan, (exists_temperatureOf_rev4_eq_iff _ _).mp ⟨wireTemp w, rfl⟩⟩
  change 0 ≤ ((fanOrder cfg.decFanRev (wireFan w)).toNat : Int) ∧ ((fanOrder cfg.decFanRev (wireFan w)).toNat : Int) ≤ 3
  omega

/-- The word of a command in range is assembled field by field, at either order of the fan field. -/
theorem exists_decodeWord_eq (cfg : Config) {c : Command} (h : InDecodeRange c) : ∃ w, decodeWord cfg w = c := by
  obtain ⟨hfan, htemp⟩ := h
  obtain ⟨t, ht⟩ := (exists_temperatureOf_rev4_eq_iff c.unit c.temperature).mpr htemp
  refine ⟨wireWord (modeEnc c.mode) c.power (fanField cfg.decFanRev c.fanSpeed) c.sleep t (bitOfUnit c.unit) baseIgnored, ?_⟩
  simp only [decodeWord_eq_fields, wireMode_wireWord, wirePower_wireWord, wireFan_wireWord, wireSleep_wireWord,
    wireTemp_wireWord, wireUnit_wireWord, modeDec_modeEnc, unitOfBit_bitOfUnit, toNat_fanOrder_fanField,
    if_pos ((fanOk_iff _).mpr hfan), ht]

theorem exists_decodeWord_eq_iff (cfg : Config) (c : Command) : (∃ w, decodeWord cfg w = c) ↔ InDecodeRange c := by
  constructor
  · rintro ⟨w, rfl⟩
    exact inDecodeRange_decodeWord cfg w
  · exact exists_decodeWord_eq cfg

/-! ## The list of the results -/

theorem mem_decodeResults (c : Command) : c ∈ decodeResults ↔ InDecodeRange c := by
  rw [decodeResults, List.mem_append, mem_commandsWith, mem_commandsWith, mem_intsFrom, mem_intsFrom, InDecodeRange]
  cases c.unit <;> simp [lowestTemperature]

/-- The two halves of the list differ in the unit. -/
theorem nodup_decodeResults : decodeResults.Nodup := by
  refine List.nodup_append'.mpr ⟨nodup_commandsWith _ _ (nodup_intsFrom 16 16), nodup_commandsWith _ _ (nodup_intsFrom 0 16),
    fun c hC hF => ?_⟩
  obtain ⟨-, -, hcelsius⟩ := (mem_commandsWith _ _ c).mp hC
  obtain ⟨-, -, hfahrenheit⟩ := (mem_commandsWith _ _ c).mp hF
  exact TempUnit.noConfusion (hcelsius.symm.trans hfahrenheit)

theorem length_decodeResults : decodeResults.length = 2560 := by
  rw [decodeResults, List.length_append, length_commandsWith, length_commandsWith, length_intsFrom, length_intsFrom]

/-- Settles O23: the results are exactly the commands in range, which the list enumerates; a bit that `DECODE` ignores makes
two words decode alike. -/
theorem decodeResultsAreCounted : Obligations.DecodeResultsAreCounted := by
  refine ⟨fun cfg w => ?ranges, fun cfg c => ?exactly, nodup_decodeResults, length_decodeResults, fun hinj => ?notInjective⟩
  case ranges =>
    obtain ⟨⟨hfan0, hfan3⟩, hlo, hhi⟩ := inDecodeRange_decodeWord cfg w
    refine ⟨hfan0, hfan3, fun hunit => ?_, fun hunit => ?_⟩
    all_goals
      simp only [hunit, lowestTemperature] at hlo hhi
      omega
  case exactly => rw [mem_decodeResults, exists_decodeWord_eq_iff]
  case notInjective => exact absurd (hinj (decodeWord_and_fieldMask hardware 0x602)) (by decide)

end Sys2Proof.Machine
end

section
/-! Round trips (44_laws.md R100, R106, R107, R110): `DECODE` after `ENCODE` is the normal form exactly when the two fan
parameters are equal, and the canonical commands are the normal forms. -/

namespace Sys2Proof.Machine

/-! ## The canonical commands are the normal forms -/

/-- `CanonC`, clause by clause (10_state.md R23). -/
theorem canonC_iff (c : Command) : canonC c = true ↔
    c.unit = .celsius ∧ (0 ≤ c.fanSpeed ∧ c.fanSpeed ≤ 3) ∧ 16 ≤ c.temperature ∧ c.temperature ≤ 30 := by
  simp only [canonC, Bool.and_eq_true, beq_iff_eq, fanOk_iff, decide_eq_true_eq, and_assoc]

/-- `CanonF`, clause by clause (10_state.md R23). -/
theorem canonF_iff (c : Command) : canonF c = true ↔
    c.unit = .fahrenheit ∧ (0 ≤ c.fanSpeed ∧ c.fanSpeed ≤ 3) ∧ c.temperature = 0 := by
  simp only [canonF, Bool.and_eq_true, beq_iff_eq, fanOk_iff, and_assoc]

/-- The commands that survive a round trip, in either unit (10_state.md R23). -/
def Canonical (c : Command) : Prop := canonC c = true ∨ canonF c = true

/-- `NORM` changes the fan speed and the temperature only. -/
theorem normalForm_eq_self_iff (c : Command) :
    normalForm c = c ↔ fanOk c.fanSpeed = true ∧ keptTemperature c.unit c.temperature = c.temperature := by
  obtain ⟨power, mode, fan, sleep, temperature, unit⟩ := c
  have hfan : (if fanOk fan then fan else 0) = fan ↔ fanOk fan = true := by
    split
    · simp [*]
    · next hdropped =>
      refine ⟨fun h => absurd ?_ hdropped, fun h => absurd h hdropped⟩
      rw [← h]
      decide
  simp only [normalForm, Command.mk.injEq, hfan, true_and, and_true]

/-- The clamp leaves exactly the temperatures in range (41_fieldpack.md R70). -/
theorem keptTemperature_celsius_eq_self_iff (v : Int) : keptTemperature .celsius v = v ↔ 16 ≤ v ∧ v ≤ 30 := by
  change clamp v 16 30 = v ↔ _
  rw [clamp_eq_max_min (by decide)]
  omega

/-- 44_laws.md R107: `NORM` fixes exactly `CanonC` and `CanonF`. -/
theorem normalForm_eq_self_iff_canonical (c : Command) : normalForm c = c ↔ Canonical c := by
  rw [normalForm_eq_self_iff, Canonical, canonC_iff, canonF_iff, fanOk_iff]
  cases c.unit with
  | celsius => simp [keptTemperature_celsius_eq_self_iff]
  | fahrenheit => simp [keptTemperature, eq_comm]

/-- The word of a normal form is the command's own, so a second normalisation has no effect (44_laws.md R107). -/
theorem normalForm_normalForm (c : Command) : normalForm (normalForm c) = normalForm c :=
  (encodeCommand_eq_iff hardware _ _).mp (encodeCommand_normalForm hardware c)

theorem canonical_normalForm (c : Command) : Canonical (normalForm c) :=
  (normalForm_eq_self_iff_canonical _).mp (normalForm_normalForm c)

/-! ## The fan parameters -/

/-- A canonical command whose fan field differs from its reversal. -/
def lowFan : Command := ⟨false, .auto, 1, false, 16, .celsius⟩

theorem canonC_lowFan : canonC lowFan = true := by decide

/-- 44_laws.md R110: a fan speed of 1 comes back only if it is read in the order in which it was written. -/
theorem fan_parameters_eq_of_lowFan (cfg : Config) (h : decodeWord cfg (encodeCommand cfg lowFan) = lowFan) :
    cfg.encFanRev = cfg.decFanRev := by
  obtain ⟨enc, dec⟩ := cfg
  revert enc dec
  decide

/-- 44_laws.md R110: on canonical commands among which is `lowFan`, the round trip holds exactly when the two fan parameters
are equal. -/
theorem forall_decodeWord_encodeCommand_iff {P : Command → Prop} (hP : ∀ c, P c → Canonical c) (hlow : P lowFan)
    (cfg : Config) :
    (∀ c, P c → decodeWord cfg (encodeCommand cfg c) = c) ↔ cfg.encFanRev = cfg.decFanRev := by
  constructor
  · intro h
    exact fan_parameters_eq_of_lowFan cfg (h lowFan hlow)
  · intro heq c hc
    rw [decodeWord_encodeCommand cfg c heq.symm]
    exact (normalForm_eq_self_iff_canonical c).mpr (hP c hc)

/-! ## The lists of the canonical commands -/

theorem mem_canonCList (c : Command) : c ∈ canonCList ↔ canonC c = true := by
  have hrange : c.temperature ∈ intsFrom 16 15 ↔ 16 ≤ c.temperature ∧ c.temperature ≤ 30 := by
    rw [mem_intsFrom]
    omega
  rw [canonCList, mem_commandsWith, hrange, canonC_iff]
  tauto

theorem mem_canonFList (c : Command) : c ∈ canonFList ↔ canonF c = true := by
  rw [canonFList, mem_commandsWith, canonF_iff, List.mem_singleton]
  tauto

theorem nodup_canonCList : canonCList.Nodup := nodup_commandsWith _ _ (nodup_intsFrom 16 15)

theorem nodup_canonFList : canonFList.Nodup := nodup_commandsWith _ _ (List.nodup_singleton 0)

theorem length_canonCList : canonCList.length = 1200 := by
  rw [canonCList, length_commandsWith, length_intsFrom]

theorem length_canonFList : canonFList.length = 80 := length_commandsWith _ _

/-- Settles O29: a canonical command is its own normal form, which is what `DECODE` delivers at equal fan parameters. -/
theorem celsiusCommandsRoundTrip : Obligations.CelsiusCommandsRoundTrip := by
  have hiff := forall_decodeWord_encodeCommand_iff (P := fun c => canonC c = true) (fun _ => .inl) canonC_lowFan
  refine ⟨fun c hunit hfan0 hfan3 hlo hhi => ?hardware, hiff, nodup_canonCList, length_canonCList, mem_canonCList⟩
  exact (hiff hardware).mpr rfl c ((canonC_iff c).mpr ⟨hunit, ⟨hfan0, hfan3⟩, hlo, hhi⟩)

/-- Settles O30: the decoder delivers `NORM`, whose consequences follow from what `ENCODE` does not read. -/
theorem decodeAfterEncodeIsTheNormalForm : Obligations.DecodeAfterEncodeIsTheNormalForm := by
  refine ⟨fun cfg => ⟨fun h => ?equal, fun heq c => decodeWord_encodeCommand cfg c heq.symm⟩, normalForm_normalForm,
    encodeCommand_normalForm, encodeCommand_eq_iff, fun cfg c heq => ?reencode, normalForm_eq_self_iff_canonical,
    fun cfg c heq => decodeWord_encodeCommand cfg c heq.symm⟩
  case equal =>
    have hcanonical : normalForm lowFan = lowFan := (normalForm_eq_self_iff_canonical _).mpr (.inl canonC_lowFan)
    exact fan_parameters_eq_of_lowFan cfg ((h lowFan).trans hcanonical)
  case reencode => rw [decodeWord_encodeCommand cfg c heq.symm, encodeCommand_normalForm]

/-- Settles O32: `DECODE` delivers `NORM`, which keeps all of a Fahrenheit command but its temperature. -/
theorem fahrenheitLosesItsTemperature : Obligations.FahrenheitLosesItsTemperature := by
  refine ⟨fun c hunit => ⟨wireTemp_encodeCommand_fahrenheit hardware c hunit, ?unitBit, ?decoded⟩, nodup_canonFList,
    length_canonFList, mem_canonFList⟩
  case unitBit =>
    have hbit := wireUnit_encodeCommand hardware c
    rwa [hunit] at hbit
  case decoded =>
    have hcanon : Canonical c ↔ canonF c = true := by simp [Canonical, canonC_iff, hunit]
    rw [decodeWord_encodeCommand hardware c rfl]
    refine ⟨rfl, rfl, rfl, rfl, ?temperature, fun hfan0 hfan3 => ?fan,
      (normalForm_eq_self_iff_canonical c).trans hcanon⟩
    case temperature => simp only [normalForm, hunit, keptTemperature]
    case fan => exact if_pos ((fanOk_iff _).mpr ⟨hfan0, hfan3⟩)

end Sys2Proof.Machine
end
section
/-! The fields of `ENCODE`'s word and of `DECODE`'s command one by one (44_laws.md R101 to R104, R111): what each depends
on, and where it does not depend on all of its operand. -/

namespace Sys2Proof.Machine

/-! ## The fields of the encoded word -/

section Fields

variable (cfg : Config) (c : Command)

theorem wireMode_encodeCommand : wireMode (encodeCommand cfg c) = modeEnc c.mode := by
  rw [encodeCommand_eq_wireWord, wireMode_wireWord]

theorem wirePower_encodeCommand : wirePower (encodeCommand cfg c) = c.power := by
  rw [encodeCommand_eq_wireWord, wirePower_wireWord]

theorem wireFan_encodeCommand : wireFan (encodeCommand cfg c) = fanField cfg.encFanRev c.fanSpeed := by
  rw [encodeCommand_eq_wireWord, wireFan_wireWord]

theorem wireSleep_encodeCommand : wireSleep (encodeCommand cfg c) = c.sleep := by
  rw [encodeCommand_eq_wireWord, wireSleep_wireWord]

theorem wireTemp_encodeCommand : wireTemp (encodeCommand cfg c) = tempField c.unit c.temperature := by
  rw [encodeCommand_eq_wireWord, wireTemp_wireWord]

/-- `ENCODE` reads a temperature through its field alone. -/
theorem encodeCommand_congr_temperature {v : Int} (h : tempField c.unit c.temperature = tempField c.unit v) :
    encodeCommand cfg c = encodeCommand cfg { c with temperature := v } := by
  simp only [encodeCommand_eq_wireWord, h]

/-- `ENCODE` reads a fan speed through its field alone. -/
theorem encodeCommand_congr_fanSpeed {f : Int} (h : fanField cfg.encFanRev c.fanSpeed = fanField cfg.encFanRev f) :
    encodeCommand cfg c = encodeCommand cfg { c with fanSpeed := f } := by
  simp only [encodeCommand_eq_wireWord, h]

end Fields

/-- Settles O35: `DECODE` builds each field from its own bits, and `ENCODE` writes each field from its own operands. -/
theorem fieldsAreIndependent : Obligations.FieldsAreIndependent := by
  refine ⟨fun cfg w v => ?decode, fun cfg c d => ?encode⟩
  case decode =>
    simp only [decodeWord_eq_fields]
    refine ⟨id, congrArg modeDec, congrArg fun f => ((fanOrder cfg.decFanRev f).toNat : Int), id, congrArg unitOfBit,
      fun htemp hunit => ?_⟩
    exact congrArg₂ (fun u t => temperatureOf (unitOfBit u) (rev4 t)) hunit htemp
  case encode =>
    refine ⟨fun h => ?power, fun h => ?mode, fun h => ?fan, fun h => ?sleep, fun h => ?unit, fun htemp hunit => ?temp⟩
    case power => exact (wirePower_encodeCommand cfg c).trans (h.trans (wirePower_encodeCommand cfg d).symm)
    case mode =>
      change wireMode _ = wireMode _
      rw [wireMode_encodeCommand, wireMode_encodeCommand, h]
    case fan =>
      change wireFan _ = wireFan _
      rw [wireFan_encodeCommand, wireFan_encodeCommand, h]
    case sleep => exact (wireSleep_encodeCommand cfg c).trans (h.trans (wireSleep_encodeCommand cfg d).symm)
    case unit =>
      change wireUnit _ = wireUnit _
      rw [wireUnit_encodeCommand, wireUnit_encodeCommand, h]
    case temp =>
      change wireTemp _ = wireTemp _
      rw [wireTemp_encodeCommand, wireTemp_encodeCommand, htemp, hunit]

/-! ## Operands out of range -/

/-- 41_fieldpack.md R70, R71: the magnitude of a temperature that is not above the lower bound. -/
theorem celsiusMagnitude_of_le {v : Int} (h : v ≤ 16) : celsiusMagnitude v = 0 := by
  change clamp v 16 30 - 16 = 0
  rw [clamp_eq_max_min (by decide)]
  omega

/-- 41_fieldpack.md R70, R71: the magnitude of a temperature that is not below the upper bound. -/
theorem celsiusMagnitude_of_ge {v : Int} (h : 30 ≤ v) : celsiusMagnitude v = 14 := by
  change clamp v 16 30 - 16 = 14
  rw [clamp_eq_max_min (by decide)]
  omega

theorem tempField_celsius_of_le {v : Int} (h : v ≤ 16) : tempField .celsius v = 0b0000 := by
  rw [tempField, celsiusMagnitude_of_le h]
  decide

theorem tempField_celsius_of_ge {v : Int} (h : 30 ≤ v) : tempField .celsius v = 0b0111 := by
  rw [tempField, celsiusMagnitude_of_ge h]
  decide

/-- Settles O18: beyond a bound the temperature field is the bound's own. -/
theorem celsiusTemperatureIsClamped : Obligations.CelsiusTemperatureIsClamped := by
  refine ⟨fun cfg c hunit hlow => ?below, fun cfg c hunit hhigh => ?above⟩
  case below =>
    have hfield : tempField c.unit c.temperature = 0b0000 := by rw [hunit, tempField_celsius_of_le (Int.le_of_lt hlow)]
    refine ⟨(wireTemp_encodeCommand cfg c).trans hfield, encodeCommand_congr_temperature cfg c (hfield.trans ?_)⟩
    rw [hunit, tempField_celsius_of_le le_rfl]
  case above =>
    have hfield : tempField c.unit c.temperature = 0b0111 := by rw [hunit, tempField_celsius_of_ge (Int.le_of_lt hhigh)]
    refine ⟨(wireTemp_encodeCommand cfg c).trans hfield, encodeCommand_congr_temperature cfg c (hfield.trans ?_)⟩
    rw [hunit, tempField_celsius_of_ge le_rfl]

/-- 42_encode.md R86: a fan speed out of range writes no bit, and neither does fan speed 0. -/
theorem fanField_of_not_fanOk (reversed : Bool) {f : Int} (h : ¬ fanOk f = true) : fanField reversed f = 0 :=
  if_neg h

theorem fanField_zero (reversed : Bool) : fanField reversed 0 = 0 := by cases reversed <;> rfl

/-- Settles O19: out of range, the fan field is that of fan speed 0. -/
theorem fanOutOfRangeIsDropped : Obligations.FanOutOfRangeIsDropped := by
  intro cfg c hrange
  have hfield : fanField cfg.encFanRev c.fanSpeed = 0 :=
    fanField_of_not_fanOk _ (mt (fanOk_iff c.fanSpeed).mp hrange)
  refine ⟨(wireFan_encodeCommand cfg c).trans hfield, encodeCommand_congr_fanSpeed cfg c (hfield.trans ?_)⟩
  rw [fanField_zero]

/-- Settles O21: the base constant lies inside the mask of the constant bits, which `ENCODE` leaves at the base. -/
theorem encodeKeepsTheConstantBits : Obligations.EncodeKeepsTheConstantBits := by
  intro cfg c
  have hconst : encodeCommand cfg c &&& constMask = base := encodeCommand_and_constMask cfg c
  refine ⟨?base, hconst⟩
  calc encodeCommand cfg c &&& 0x602
      = encodeCommand cfg c &&& (constMask &&& base) := rfl
    _ = encodeCommand cfg c &&& constMask &&& base := (BitVec.and_assoc _ _ _).symm
    _ = 0x602 := by rw [hconst]; rfl

/-! ## The unlisted mode patterns -/

/-- 41_fieldpack.md R75. -/
theorem modeDec_of_unlisted {m : BitVec 3} (h : m.toNat ∈ [0b011, 0b101, 0b111]) : modeDec m = .auto := by
  revert m; decide

/-- Settles O25: `MODE_DEC` reads the word's mode field. -/
theorem unlistedModeReadsAsAuto : Obligations.UnlistedModeReadsAsAuto := by
  refine ⟨fun cfg w h => ?unlisted, ?witnesses⟩
  case unlisted =>
    rw [decodeWord_eq_fields]
    exact modeDec_of_unlisted h
  case witnesses => decide

/-! ## The document's example -/

/-- Settles O36: fixed words, each evaluated by the model. -/
theorem endToEndExample : Obligations.EndToEndExample := by
  refine ⟨?encoded, ?sum, ?decoded, ?rejectedSum, ?rejectedSleep, ?rejectedTemperature, ?reversed⟩
  all_goals decide

end Sys2Proof.Machine
end

section
/-! `ENCODE` after `DECODE` (44_laws.md R105, R108): the fields that come back, the words whose fields all do, and the image
of `ENCODE` told from the word alone. -/

namespace Sys2Proof.Machine

/-! ## Masks over an assembled word -/

section Assembly

variable (m m' : BitVec 3) (p p' : Bool) (f f' : BitVec 2) (sl sl' : Bool) (t t' : BitVec 4) (u u' : Bool) (x x' : Ignored)

/-- Assembling commutes with AND, field by field. -/
theorem wireWord_and_wireWord :
    wireWord m p f sl t u x &&& wireWord m' p' f' sl' t' u' x' =
      wireWord (m &&& m') (p && p') (f &&& f') (sl && sl') (t &&& t') (u && u')
        ⟨x.bit25 && x'.bit25, x.bits19to5 &&& x'.bits19to5, x.bits3to0 &&& x'.bits3to0⟩ := by
  apply BitVec.eq_of_getLsbD_eq
  intro i _
  simp only [BitVec.getLsbD_and, getLsbD_wireWord, apply_ite₂ Bool.and]

/-- Assembling commutes with OR, field by field. -/
theorem wireWord_or_wireWord :
    wireWord m p f sl t u x ||| wireWord m' p' f' sl' t' u' x' =
      wireWord (m ||| m') (p || p') (f ||| f') (sl || sl') (t ||| t') (u || u')
        ⟨x.bit25 || x'.bit25, x.bits19to5 ||| x'.bits19to5, x.bits3to0 ||| x'.bits3to0⟩ := by
  apply BitVec.eq_of_getLsbD_eq
  intro i _
  simp only [BitVec.getLsbD_or, getLsbD_wireWord, apply_ite₂ Bool.or]

/-- The base constant supplies `ENCODE`'s ignored bits (30_encoding.md R44). -/
theorem wireWord_or_base : wireWord m p f sl t u ⟨false, 0, 0⟩ ||| base = wireWord m p f sl t u baseIgnored := by
  have hbase : base = wireWord 0 false 0 false 0 false baseIgnored := by decide
  rw [hbase, wireWord_or_wireWord]
  simp only [BitVec.ofNat_eq_ofNat, BitVec.or_zero, BitVec.zero_or, Bool.or_false, baseIgnored]

/-- The mask of the fields that a re-encoded word always keeps: power, fan, sleep and unit (44_laws.md R105). -/
theorem wireWord_and_keptMask :
    wireWord m p f sl t u x &&& 0x1D000010#32 = wireWord 0 p f sl 0 u ⟨false, 0, 0⟩ := by
  have hmask : 0x1D000010#32 = wireWord 0 true (BitVec.allOnes 2) true 0 true ⟨false, 0, 0⟩ := by decide
  rw [hmask, wireWord_and_wireWord]
  simp only [BitVec.ofNat_eq_ofNat, BitVec.and_allOnes, BitVec.and_zero, Bool.and_true, Bool.and_false]

/-- Outside the fan mask nothing but the fan field is lost (30_encoding.md R45). -/
theorem wireWord_and_not_fanMask : wireWord m p f sl t u x &&& ~~~fanMask = wireWord m p 0 sl t u x := by
  have hmask : ~~~fanMask = wireWord (BitVec.allOnes 3) true 0 true (BitVec.allOnes 4) true
      ⟨true, BitVec.allOnes 15, BitVec.allOnes 4⟩ := by decide
  rw [hmask, wireWord_and_wireWord]
  simp only [BitVec.ofNat_eq_ofNat, BitVec.and_allOnes, BitVec.and_zero, Bool.and_true]

end Assembly

/-! ## The fields of a re-encoded word -/

/-- The temperature field that comes back (44_laws.md R105). -/
def reencodedTemp (unit : Bool) (t : BitVec 4) : BitVec 4 :=
  tempField (unitOfBit unit) (temperatureOf (unitOfBit unit) (rev4 t))

/-- A decoded magnitude 15 is 31 degrees, which `ENCODE` clamps; a Fahrenheit temperature is not written. -/
theorem reencodedTemp_eq (unit : Bool) (t : BitVec 4) :
    reencodedTemp unit t = if unit then 0b0000 else if t = 0b1111 then 0b0111 else t := by
  cases unit with
  | true => rfl
  | false => revert t; decide

/-- A fan field's own value is written back in the encoder's order. -/
theorem fanField_natCast_toNat (reversed : Bool) (f : BitVec 2) :
    fanField reversed (f.toNat : Int) = fanOrder reversed f := by
  have hok : fanOk (f.toNat : Int) = true := (fanOk_iff _).mpr (by omega)
  rw [fanField, if_pos hok, ofInt_natCast_toNat, BitVec.setWidth_eq]

/-- `ENCODE` of a decoded word, field by field, for any two settings of the fan parameters. -/
theorem encodeCommand_decodeWord (cfg reader : Config) (w : Word) :
    encodeCommand cfg (decodeWord reader w) =
      wireWord (modeEnc (modeDec (wireMode w))) (wirePower w)
        (fanOrder cfg.encFanRev (fanOrder reader.decFanRev (wireFan w))) (wireSleep w)
        (reencodedTemp (wireUnit w) (wireTemp w)) (wireUnit w) baseIgnored := by
  rw [encodeCommand_eq_wireWord, decodeWord_eq_fields]
  simp only [fanField_natCast_toNat, bitOfUnit_unitOfBit, reencodedTemp]

/-- The word with `w`'s fields and `ENCODE`'s ignored bits. -/
theorem and_fieldMask_or_base (w : Word) :
    (w &&& fieldMask) ||| base =
      wireWord (wireMode w) (wirePower w) (wireFan w) (wireSleep w) (wireTemp w) (wireUnit w) baseIgnored := by
  conv_lhs => rw [← wireWord_fields w, wireWord_and_fieldMask, wireWord_or_base]

/-- A word has `ENCODE`'s ignored bits exactly when its constant bits are the base (30_encoding.md R45). -/
theorem and_constMask_eq_base_iff (w : Word) : w &&& constMask = base ↔ (w &&& fieldMask) ||| base = w := by
  have hbase : base = wireWord 0 false 0 false 0 false baseIgnored := by decide
  have hconst : w &&& constMask = wireWord 0 false 0 false 0 false (wireIgnored w) := by
    conv_lhs => rw [← wireWord_fields w]
    exact wireWord_and_constMask ..
  rw [hconst, hbase, wireWord_inj, ← hbase, and_fieldMask_or_base]
  conv_rhs => rhs; rw [← wireWord_fields w]
  rw [wireWord_inj]
  simp [eq_comm]

/-! ## The words whose fields all come back -/

/-- `Good`, field by field (44_laws.md R105). -/
theorem goodWord_iff (w : Word) : goodWord w = true ↔
    listedMode (wireMode w) = true ∧ reencodedTemp (wireUnit w) (wireTemp w) = wireTemp w := by
  have htemp : (if wireUnit w then wireTemp w == 0b0000 else wireTemp w != 0b1111) = true ↔
      reencodedTemp (wireUnit w) (wireTemp w) = wireTemp w := by
    generalize wireUnit w = u
    generalize wireTemp w = t
    revert u t
    decide
  rw [← htemp, ← Bool.and_eq_true_iff, ← Bool.eq_iff_iff]
  simp only [goodWord, fext_eq_extract]
  rfl

/-- 41_fieldpack.md R75: the patterns that come back are the listed ones. -/
theorem modeEnc_modeDec_eq_self_iff (m : BitVec 3) : modeEnc (modeDec m) = m ↔ listedMode m = true := by
  revert m; decide

/-- 44_laws.md R105, for an encoder that writes the fan field in the order in which the decoder read it. -/
theorem encodeCommand_decodeWord_eq_iff {cfg reader : Config} (h : reader.decFanRev = cfg.encFanRev) (w : Word) :
    encodeCommand cfg (decodeWord reader w) = (w &&& fieldMask) ||| base ↔ goodWord w = true := by
  rw [encodeCommand_decodeWord, h, fanOrder_fanOrder, and_fieldMask_or_base, wireWord_inj, modeEnc_modeDec_eq_self_iff,
    goodWord_iff]
  simp only [true_and, and_true]

/-- 44_laws.md R105: `Good` is a property of the field bits. -/
theorem goodWord_and_fieldMask (w : Word) : goodWord (w &&& fieldMask) = goodWord w := by
  rw [Bool.eq_iff_iff, goodWord_iff, goodWord_iff]
  conv_lhs => rw [← wireWord_fields w, wireWord_and_fieldMask]
  simp only [wireMode_wireWord, wireTemp_wireWord, wireUnit_wireWord]

/-! ## The image of `ENCODE` -/

/-- The setting whose decoder reads the fan field in the order in which `cfg` writes it. -/
def matchingReader (cfg : Config) : Config := { cfg with decFanRev := cfg.encFanRev }

theorem decodeWord_matchingReader (cfg : Config) (c : Command) :
    decodeWord (matchingReader cfg) (encodeCommand cfg c) = normalForm c :=
  decodeWord_encodeCommand cfg c rfl

/-- `ENCODE`'s word is made of its fields and the base constant. -/
theorem encodeCommand_and_fieldMask_or_base (cfg : Config) (c : Command) :
    (encodeCommand cfg c &&& fieldMask) ||| base = encodeCommand cfg c :=
  (and_constMask_eq_base_iff _).mp (encodeCommand_and_constMask cfg c)

/-- 44_laws.md R108: `ENCODE` produces words of `Good` only, since `NORM` has the same word. -/
theorem goodWord_encodeCommand (cfg : Config) (c : Command) : goodWord (encodeCommand cfg c) = true := by
  rw [← encodeCommand_decodeWord_eq_iff (cfg := cfg) (reader := matchingReader cfg) rfl, decodeWord_matchingReader,
    encodeCommand_normalForm, encodeCommand_and_fieldMask_or_base]

/-- 44_laws.md R108: a word is `ENCODE`'s exactly when its constant bits are the base and it is in `Good`. -/
theorem exists_encodeCommand_eq_iff (cfg : Config) (w : Word) :
    (∃ c, encodeCommand cfg c = w) ↔ w &&& constMask = base ∧ goodWord w = true := by
  constructor
  · rintro ⟨c, rfl⟩
    exact ⟨encodeCommand_and_constMask cfg c, goodWord_encodeCommand cfg c⟩
  · rintro ⟨hconst, hgood⟩
    refine ⟨decodeWord (matchingReader cfg) w, ?_⟩
    rw [(encodeCommand_decodeWord_eq_iff rfl w).mpr hgood, (and_constMask_eq_base_iff w).mp hconst]

/-! ## The words of the canonical commands -/

theorem mem_canonicalList (c : Command) : c ∈ canonCList ++ canonFList ↔ Canonical c := by
  rw [List.mem_append, mem_canonCList, mem_canonFList, Canonical]

/-- The two lists differ in the unit. -/
theorem nodup_canonicalList : (canonCList ++ canonFList).Nodup := by
  refine List.nodup_append'.mpr ⟨nodup_canonCList, nodup_canonFList, fun c hC hF => ?_⟩
  obtain ⟨hcelsius, -⟩ := (canonC_iff c).mp ((mem_canonCList c).mp hC)
  obtain ⟨hfahrenheit, -⟩ := (canonF_iff c).mp ((mem_canonFList c).mp hF)
  exact TempUnit.noConfusion (hcelsius.symm.trans hfahrenheit)

/-- The field bits of the word determine a canonical command. -/
theorem Canonical.eq_of_fields_eq {cfg : Config} {c c' : Command} (hc : Canonical c) (hc' : Canonical c')
    (h : encodeCommand cfg c &&& fieldMask = encodeCommand cfg c' &&& fieldMask) : c = c' := by
  have hdecoded := decodeWord_congr (matchingReader cfg) h
  rwa [decodeWord_matchingReader, decodeWord_matchingReader, (normalForm_eq_self_iff_canonical c).mpr hc,
    (normalForm_eq_self_iff_canonical c').mpr hc'] at hdecoded

theorem nodup_map_canonicalList_fields (cfg : Config) :
    ((canonCList ++ canonFList).map fun c => encodeCommand cfg c &&& fieldMask).Nodup :=
  nodup_canonicalList.map_on fun c hc c' hc' h =>
    ((mem_canonicalList c).mp hc).eq_of_fields_eq ((mem_canonicalList c').mp hc') h

theorem nodup_map_canonicalList (cfg : Config) : ((canonCList ++ canonFList).map (encodeCommand cfg)).Nodup :=
  nodup_canonicalList.map_on fun c hc c' hc' h =>
    ((mem_canonicalList c).mp hc).eq_of_fields_eq ((mem_canonicalList c').mp hc') (congrArg (· &&& fieldMask) h)

/-- Every word of `ENCODE` is the word of a canonical command, the normal form (44_laws.md R107, R108). -/
theorem mem_map_canonicalList_iff (cfg : Config) (w : Word) :
    w ∈ (canonCList ++ canonFList).map (encodeCommand cfg) ↔ ∃ c, encodeCommand cfg c = w := by
  rw [List.mem_map]
  constructor
  · rintro ⟨c, -, h⟩
    exact ⟨c, h⟩
  · rintro ⟨c, h⟩
    exact ⟨normalForm c, (mem_canonicalList _).mpr (canonical_normalForm c), (encodeCommand_normalForm cfg c).trans h⟩

/-- 44_laws.md R105: the field bits of the words in `Good` are those of `ENCODE`'s words. -/
theorem goodWord_iff_mem (cfg : Config) (w : Word) : goodWord w = true ↔
    w &&& fieldMask ∈ (canonCList ++ canonFList).map fun c => encodeCommand cfg c &&& fieldMask := by
  have hfields : ((w &&& fieldMask) ||| base) &&& fieldMask = w &&& fieldMask := by
    rw [and_fieldMask_or_base, wireWord_and_fieldMask]
    conv_rhs => rw [← wireWord_fields w, wireWord_and_fieldMask]
  rw [List.mem_map]
  constructor
  · intro hgood
    refine ⟨normalForm (decodeWord (matchingReader cfg) w), (mem_canonicalList _).mpr (canonical_normalForm _), ?_⟩
    rw [encodeCommand_normalForm, (encodeCommand_decodeWord_eq_iff rfl w).mpr hgood, hfields]
  · rintro ⟨c, -, h⟩
    rw [← goodWord_and_fieldMask, ← h, goodWord_and_fieldMask, goodWord_encodeCommand]

/-! ## The laws of the re-encoded word -/

/-- 44_laws.md R110: fan bits 01 come back only if they are written in the order in which they were read. -/
theorem fan_parameters_eq_of_lowFanWord (cfg : Config)
    (h : encodeCommand cfg (decodeWord cfg 0x04000602) = (0x04000602 &&& fieldMask) ||| base) :
    cfg.encFanRev = cfg.decFanRev := by
  obtain ⟨enc, dec⟩ := cfg
  revert enc dec
  decide

/-- 44_laws.md R105: power, fan, sleep and unit come back whatever the word. -/
theorem encodeCommand_decodeWord_and_keptMask {cfg reader : Config} (h : reader.decFanRev = cfg.encFanRev) (w : Word) :
    encodeCommand cfg (decodeWord reader w) &&& 0x1D000010#32 = w &&& 0x1D000010#32 := by
  rw [encodeCommand_decodeWord, h, fanOrder_fanOrder, wireWord_and_keptMask]
  conv_rhs => rw [← wireWord_fields w, wireWord_and_keptMask]

theorem wireTemp_encodeCommand_decodeWord (cfg reader : Config) (w : Word) :
    wireTemp (encodeCommand cfg (decodeWord reader w)) = reencodedTemp (wireUnit w) (wireTemp w) := by
  rw [encodeCommand_decodeWord, wireTemp_wireWord]

/-- Settles O31: the re-encoded word is assembled field by field; the mode and the temperature need `Good`, the fan field
needs equal parameters. -/
theorem encodeAfterDecodeExactlyOnGood : Obligations.EncodeAfterDecodeExactlyOnGood := by
  refine ⟨fun w => (encodeCommand_decodeWord_eq_iff rfl w).symm, fun w hmode => ?mode, fun w hunit htemp => ?celsius,
    fun w hunit => ?fahrenheit, encodeCommand_decodeWord_and_keptMask rfl, nodup_map_canonicalList_fields hardware, ?count,
    goodWord_iff_mem hardware, fun cfg => ⟨fun h => ?equal, fun heq w => ?good⟩⟩
  case mode =>
    change wireMode _ = 0b000
    rw [encodeCommand_decodeWord, wireMode_wireWord, modeDec_of_unlisted (m := wireMode w) hmode]
    rfl
  case celsius =>
    refine (wireTemp_encodeCommand_decodeWord hardware hardware w).trans ?_
    rw [show wireUnit w = false from hunit, show wireTemp w = 0b1111 from htemp, reencodedTemp_eq]
    rfl
  case fahrenheit =>
    refine (wireTemp_encodeCommand_decodeWord hardware hardware w).trans ?_
    rw [show wireUnit w = true from hunit, reencodedTemp_eq]
    rfl
  case count => rw [List.length_map, List.length_append, length_canonCList, length_canonFList]
  case equal => exact fan_parameters_eq_of_lowFanWord cfg (h 0x04000602 (by decide))
  case good => exact (encodeCommand_decodeWord_eq_iff heq.symm w).mpr

/-- Settles O33: the words of the canonical commands, told apart by their field bits, are all of `ENCODE`'s words. -/
theorem encodeImageIsExact : Obligations.EncodeImageIsExact := by
  refine ⟨exists_encodeCommand_eq_iff, fun cfg w => (mem_map_canonicalList_iff cfg w).symm, nodup_map_canonicalList,
    fun cfg => ⟨?celsiusCount, fun w hw => ?celsiusBit⟩, fun cfg => ⟨?fahrenheitCount, fun w hw => ?fahrenheitBit⟩,
    forall_decodeWord_encodeCommand_iff (fun _ => id) (.inl canonC_lowFan), fun cfg c heq => ?decoded⟩
  case celsiusCount => rw [List.length_map, length_canonCList]
  case fahrenheitCount => rw [List.length_map, length_canonFList]
  case celsiusBit =>
    obtain ⟨c, hc, rfl⟩ := List.mem_map.mp hw
    obtain ⟨hunit, -⟩ := (canonC_iff c).mp ((mem_canonCList c).mp hc)
    exact (wireUnit_encodeCommand cfg c).trans (congrArg bitOfUnit hunit)
  case fahrenheitBit =>
    obtain ⟨c, hc, rfl⟩ := List.mem_map.mp hw
    obtain ⟨hunit, -⟩ := (canonF_iff c).mp ((mem_canonFList c).mp hc)
    exact (wireUnit_encodeCommand cfg c).trans (congrArg bitOfUnit hunit)
  case decoded =>
    rw [decodeWord_encodeCommand cfg c heq.symm]
    exact ⟨canonical_normalForm c, encodeCommand_normalForm cfg c⟩

end Sys2Proof.Machine
end

section
/-! Mismatched fan parameters (44_laws.md R110): what an encoder and a decoder make of the fan field when they take its two
bits in different orders, and that they disagree on nothing else. -/

namespace Sys2Proof.Machine

/-! ## The round trip -/

/-- The fan speed whose two bits are exchanged (44_laws.md R110). -/
def exchangedFan (f : Int) : Int := ((rev2 (BitVec.ofInt 2 f)).toNat : Int)

/-- Two orders that differ exchange the two bits of the field. -/
theorem fanOrder_fanOrder_of_ne {b b' : Bool} (h : b ≠ b') (f : BitVec 2) : fanOrder b (fanOrder b' f) = rev2 f := by
  obtain rfl : b = !b' := Bool.eq_not.mpr h
  cases b' <;> rfl

/-- A dropped fan speed is written as fan speed 0, at either order (42_encode.md R86). -/
theorem fanField_eq_fanOrder (reversed : Bool) (f : Int) :
    fanField reversed f = fanOrder reversed (BitVec.ofInt 2 (if fanOk f then f else 0)) := by
  unfold fanField
  split
  · rfl
  · cases reversed <;> rfl

/-- 44_laws.md R110: read in the other order, the command comes back normalised, but for the exchange. -/
theorem decodeWord_encodeCommand_of_ne {cfg : Config} (h : cfg.encFanRev ≠ cfg.decFanRev) (c : Command) :
    decodeWord cfg (encodeCommand cfg c) =
      { normalForm c with fanSpeed := exchangedFan (normalForm c).fanSpeed } := by
  rw [encodeCommand_eq_wireWord, decodeWord_eq_fields]
  simp only [wireMode_wireWord, wirePower_wireWord, wireFan_wireWord, wireSleep_wireWord, wireTemp_wireWord,
    wireUnit_wireWord, modeDec_modeEnc, unitOfBit_bitOfUnit, fanField_eq_fanOrder, fanOrder_fanOrder_of_ne h.symm,
    temperatureOf_rev4_tempField, normalForm, exchangedFan]

/-- A canonical command fails the mismatched round trip exactly when its fan speed is not its own exchange. -/
theorem decodeWord_encodeCommand_ne_iff {cfg : Config} (h : cfg.encFanRev ≠ cfg.decFanRev) {c : Command}
    (hc : Canonical c) : decodeWord cfg (encodeCommand cfg c) ≠ c ↔ exchangedFan c.fanSpeed ≠ c.fanSpeed := by
  rw [decodeWord_encodeCommand_of_ne h, (normalForm_eq_self_iff_canonical c).mpr hc]
  refine not_congr ⟨fun heq => congrArg Command.fanSpeed heq, fun hfan => ?_⟩
  rw [hfan]

/-- Two powers, five modes and two sleeps for each temperature and each fan speed that is counted. -/
theorem length_filter_fanSpeed_commandsWith (unit : TempUnit) (temperatures : List Int) (p : Int → Bool) :
    ((commandsWith unit temperatures).filter fun c => p c.fanSpeed).length =
      20 * ((intsFrom 0 4).countP p * temperatures.length) := by
  have htemps (b : Bool) : temperatures.countP (fun _ => b) = if b then temperatures.length else 0 := by
    cases b <;> simp
  have hsum (fans : List Int) : (fans.map fun f => 2 * temperatures.countP fun _ => p f).sum =
      2 * (fans.countP p * temperatures.length) := by
    induction fans with
    | nil => simp
    | cons f fans ih =>
      rw [List.map_cons, List.sum_cons, ih, List.countP_cons, htemps]
      split <;> ring
  simp only [← List.countP_eq_length_filter, commandsWith, List.countP_flatMap, List.countP_map, Function.comp_def,
    List.map_const', List.sum_replicate, smul_eq_mul, hsum,
    show bools.length = 2 from rfl, show modes.length = 5 from rfl]
  ring

/-- 44_laws.md R110: fan speeds 1 and 2 fail, with fifteen temperatures each. -/
theorem length_filter_mismatched {cfg : Config} (h : cfg.encFanRev ≠ cfg.decFanRev) :
    (canonCList.filter fun c => decodeWord cfg (encodeCommand cfg c) != c).length = 600 := by
  have hfilter : (canonCList.filter fun c => decodeWord cfg (encodeCommand cfg c) != c) =
      canonCList.filter fun c => exchangedFan c.fanSpeed != c.fanSpeed := by
    refine List.filter_congr fun c hc => ?_
    rw [Bool.eq_iff_iff, bne_iff_ne, bne_iff_ne]
    exact decodeWord_encodeCommand_ne_iff h (.inl ((mem_canonCList c).mp hc))
  have hcount : (intsFrom 0 4).countP (fun f => exchangedFan f != f) = 2 := by decide
  rw [hfilter, canonCList, length_filter_fanSpeed_commandsWith _ _ fun f => exchangedFan f != f, hcount, length_intsFrom]

/-! ## The re-encoded word and the fields that no fan parameter touches -/

/-- A field that is not its own exchange (41_fieldpack.md R73). -/
theorem rev2_ne_self_iff (f : BitVec 2) : rev2 f ≠ f ↔ f = 0b01 ∨ f = 0b10 := by
  revert f; decide

theorem wireFan_encodeCommand_decodeWord_of_ne {cfg : Config} (h : cfg.encFanRev ≠ cfg.decFanRev) (w : Word) :
    wireFan (encodeCommand cfg (decodeWord cfg w)) = rev2 (wireFan w) := by
  rw [encodeCommand_decodeWord, wireFan_wireWord, fanOrder_fanOrder_of_ne h]

/-- Settles O34: orders that differ exchange the two fan bits, on the way back and on the way out, and no other field is
written or read in an order. -/
theorem mismatchedFanParameters : Obligations.MismatchedFanParameters := by
  refine ⟨fun cfg c h => decodeWord_encodeCommand_of_ne h c, fun cfg h => length_filter_mismatched h,
    fun cfg w h => ?reencoded, fun cfg cfg' c => ?words, fun cfg cfg' w => ?commands⟩
  case reencoded =>
    change wireFan _ ≠ wireFan w ↔ _
    rw [wireFan_encodeCommand_decodeWord_of_ne h]
    exact rev2_ne_self_iff (wireFan w)
  case words =>
    change _ &&& ~~~fanMask = _ &&& ~~~fanMask
    rw [encodeCommand_eq_wireWord, encodeCommand_eq_wireWord, wireWord_and_not_fanMask, wireWord_and_not_fanMask]
  case commands => rw [decodeWord_eq_fields, decodeWord_eq_fields]

end Sys2Proof.Machine
end

section
/-! What a step does instead of raising (60_exceptions.md): it answers or refuses and never faults (R130), and the silent
normalisations (R117), one operation at a time: to which operands none applies, and that those operands come back from the
inverse operation (70_reset_and_hazards.md R140). -/

namespace Sys2Proof.Machine

/-! ## Every request is answered or refused -/

/-- Settles O39: a step is `respond` of the pending request, which every select but the reserved one has. -/
theorem stepAnswersOrRefusesTheReservedSelect : Obligations.StepAnswersOrRefusesTheReservedSelect := by
  refine fun s => ⟨fun hop => ?answers, step_of_op_reserved, fun e hfault => ?noFault⟩
  case answers =>
    obtain ⟨a, ha⟩ := exists_respond_eq_some (r := requestNow s) hop
    obtain ⟨t, hstep, -⟩ := (respond_eq_some_iff s a).mp ha
    exact ⟨t, hstep⟩
  case noFault =>
    obtain ⟨t, hstep, -⟩ | ⟨-, hstep⟩ := step_answers_respond s
    · simp [hstep] at hfault
    · simp [hstep] at hfault

/-! ## The operands to which no silent normalisation applies -/

/-- 60_exceptions.md R117: the list is complete. -/
theorem forall_silentNorm_iff {P : SilentNorm → Prop} :
    (∀ n, P n) ↔ P .sn1 ∧ P .sn2 ∧ P .sn3 ∧ P .sn4 ∧ P .sn5 ∧ P .sn6 ∧ P .sn7 ∧ P .sn8 ∧ P .sn9 ∧ P .sn10 := by
  refine ⟨fun h => ⟨h _, h _, h _, h _, h _, h _, h _, h _, h _, h _⟩, ?_⟩
  rintro ⟨h1, h2, h3, h4, h5, h6, h7, h8, h9, h10⟩ n
  cases n <;> assumption

theorem unitOfBit_eq_celsius_iff (b : Bool) : unitOfBit b = .celsius ↔ b = false := by cases b <;> decide

/-- SN1 to SN4 and SN10 spare exactly the commands of `CanonC` whose port code is a mode. -/
theorem nothingNormalised_encode_iff (w : Word) (c : CmdPort) :
    NothingNormalised ⟨0b01, w, c⟩ ↔ canonC (commandOfPort c) = true ∧ c.mode.toNat ≤ 4 := by
  rw [NothingNormalised, forall_silentNorm_iff, canonC_iff]
  cases hunit : c.unit with
  | false =>
    simp only [silentNormApplies, commandOfPort, unitOfBit_eq_celsius_iff, hunit, BitVec.ofNat_eq_ofNat, BEq.rfl,
      BitVec.reduceBEq, Bool.not_false, Bool.and_self, Bool.true_and, Bool.and_false, Bool.false_and, true_and,
      decide_eq_false_iff_not]
    omega
  | true => simp [silentNormApplies, commandOfPort, unitOfBit_eq_celsius_iff, hunit]

/-- In Celsius the temperature fields that come back are all but 1111 (44_laws.md R105). -/
theorem reencodedTemp_celsius_eq_self_iff (t : BitVec 4) : reencodedTemp false t = t ↔ t ≠ 0b1111 := by
  revert t; decide

/-- SN5 to SN8 spare exactly the Celsius words of `Good` with `ENCODE`'s ignored bits. -/
theorem nothingNormalised_decode_iff (w : Word) (c : CmdPort) :
    NothingNormalised ⟨0b10, w, c⟩ ↔ goodWord w = true ∧ wireIgnored w = baseIgnored ∧ wireUnit w = false := by
  rw [NothingNormalised, forall_silentNorm_iff, goodWord_iff]
  cases hunit : wireUnit w with
  | false =>
    simp only [silentNormApplies, reencodedTemp_celsius_eq_self_iff, hunit, BitVec.ofNat_eq_ofNat, BEq.rfl,
      BitVec.reduceBEq, Bool.not_false, Bool.and_self, Bool.true_and, Bool.and_false, Bool.false_and, true_and, and_true,
      Bool.not_eq_eq_eq_not, bne_eq_false_iff_eq, beq_eq_false_iff_ne]
    tauto
  | true => simp [silentNormApplies, hunit]

/-- SN9 spares exactly the bytes. -/
theorem nothingNormalised_rev8_iff (x : Word) (c : CmdPort) : NothingNormalised ⟨0b00, x, c⟩ ↔ x.toNat < 256 := by
  rw [NothingNormalised, forall_silentNorm_iff]
  simp [silentNormApplies]

/-! ## Each operand comes back -/

/-- 30_encoding.md R53: a port code that is a mode's comes back as it is. -/
theorem codeOfMode_modeOfCode {code : BitVec 3} (h : code.toNat ≤ 4) :
    codeOfMode ((modeOfCode code).getD .auto) = code := by
  revert code; decide

/-- 30_encoding.md R53: the typed level loses nothing of a port's command whose code is a mode's. -/
theorem portOfCommand_commandOfPort {c : CmdPort} (h : c.mode.toNat ≤ 4) : portOfCommand (commandOfPort c) = c := by
  simp only [portOfCommand, commandOfPort, codeOfMode_modeOfCode h, ofInt_natCast_toNat, BitVec.setWidth_eq,
    bitOfUnit_unitOfBit]

/-- 43_decode.md R97: the port carries every result of `DECODE`. -/
theorem commandOfPort_portOfCommand_decodeWord (cfg : Config) (w : Word) :
    commandOfPort (portOfCommand (decodeWord cfg w)) = decodeWord cfg w := by
  obtain ⟨⟨hfan0, hfan3⟩, hlo, hhi⟩ := inDecodeRange_decodeWord cfg w
  have hunit : 0 ≤ lowestTemperature (decodeWord cfg w).unit ∧ lowestTemperature (decodeWord cfg w).unit ≤ 16 := by
    cases (decodeWord cfg w).unit <;> decide
  exact commandOfPort_portOfCommand ((fitsPort_encode_iff _).mpr (by omega))

/-- `DECODE` of `ENCODE`'s word, on the port (44_laws.md R100). -/
theorem portOfCommand_decodeWord_encodeCommand {c : CmdPort} (hcanon : canonC (commandOfPort c) = true)
    (hmode : c.mode.toNat ≤ 4) :
    portOfCommand (decodeWord hardware (encodeCommand hardware (commandOfPort c))) = c := by
  rw [decodeWord_encodeCommand hardware _ rfl, (normalForm_eq_self_iff_canonical _).mpr (.inl hcanon),
    portOfCommand_commandOfPort hmode]

/-- A word with `ENCODE`'s ignored bits is its fields over the base constant (30_encoding.md R44). -/
theorem and_fieldMask_or_base_of_wireIgnored {w : Word} (h : wireIgnored w = baseIgnored) :
    (w &&& fieldMask) ||| base = w := by
  rw [and_fieldMask_or_base, ← h, wireWord_fields]

/-- `ENCODE` of `DECODE`'s command, on the port (44_laws.md R105). -/
theorem encodeCommand_commandOfPort_decodeWord {w : Word} (hgood : goodWord w = true)
    (hignored : wireIgnored w = baseIgnored) :
    encodeCommand hardware (commandOfPort (portOfCommand (decodeWord hardware w))) = w := by
  rw [commandOfPort_portOfCommand_decodeWord, (encodeCommand_decodeWord_eq_iff rfl w).mpr hgood,
    and_fieldMask_or_base_of_wireIgnored hignored]

/-- A byte on 32 bits comes back from a second reversal (40_bitrev.md R62, R63). -/
theorem rev8Word_rev8Word {x : Word} (h : x.toNat < 256) : rev8Word (rev8Word x) = x := by
  rw [rev8Word, rev8Word, BitVec.setWidth_setWidth_of_le _ (by decide), BitVec.setWidth_eq, rev8_rev8]
  apply BitVec.eq_of_toNat_eq
  simp only [BitVec.toNat_setWidth]
  omega

/-- Settles O48: an operand that no normalisation touches is in the set on which the two operations are inverse. -/
theorem nothingNormalisedNothingLost : Obligations.NothingNormalisedNothingLost := by
  refine ⟨fun c s h => ⟨_, _, exec_encode c s, exec_decode _ _, ?encode⟩,
    fun w s h => ⟨_, _, exec_decode w s, exec_encode _ _, ?decode⟩, fun x s h => ⟨_, _, rfl, rfl, ?rev8⟩⟩
  case encode =>
    obtain ⟨hcanon, hmode⟩ := (nothingNormalised_encode_iff 0 c).mp h
    exact portOfCommand_decodeWord_encodeCommand hcanon hmode
  case decode =>
    obtain ⟨hgood, hignored, -⟩ := (nothingNormalised_decode_iff w zeroCmd).mp h
    exact encodeCommand_commandOfPort_decodeWord hgood hignored
  case rev8 => exact rev8Word_rev8Word ((nothingNormalised_rev8_iff x zeroCmd).mp h)

/-! ## Two at once -/

/-- Settles O49: the normal form takes fan speed 9 to 0 and 99 degrees to 30, and has the same word. -/
theorem twoNormalisationsAtOnce : Obligations.TwoNormalisationsAtOnce := by
  have hnorm : normalForm ⟨false, .auto, 9, false, 99, .celsius⟩ = ⟨false, .auto, 0, false, 30, .celsius⟩ := by decide
  have hword : encodeCommand hardware ⟨false, .auto, 9, false, 99, .celsius⟩ = 0x00700602 := by
    rw [← encodeCommand_normalForm, hnorm]
    decide
  exact ⟨fun s => ⟨_, exec_encode _ s, hword⟩, hword⟩

end Sys2Proof.Machine
end

section
/-! Reset and whole runs (70_reset_and_hazards.md): the outputs at reset satisfy the invariant every step leaves (R136, log
entry 4), and a run answers `respond` of each of its requests or meets the reserved select and is refused (R142). -/

namespace Sys2Proof.Machine

/-! ## A run with the reserved select -/

/-- A run ends at the first request that is refused. -/
theorem runRequests_cons_of_step_refused {r : Request} {s : State} {e : Refusal} (rs : List Request)
    (hstep : step (present s r) = .refused e) : runRequests (r :: rs) s = .refused e := by
  simp only [runRequests, hstep]

/-- A refusal later in a run takes the earlier responses with it. -/
theorem runRequests_cons_of_run_refused {r : Request} {rs : List Request} {s t : State} {e : Refusal}
    (hstep : step (present s r) = .next t) (hrun : runRequests rs t = .refused e) :
    runRequests (r :: rs) s = .refused e := by
  simp only [runRequests, hstep, hrun]

/-- 30_encoding.md R54: one request with the reserved select, wherever it stands, has the whole run refused. -/
theorem runRequests_refused_of_mem {r : Request} (hop : r.op = 0b11) {rs : List Request} (hmem : r ∈ rs) (s : State) :
    runRequests rs s = .refused .reservedOperationSelect := by
  induction rs generalizing s with
  | nil => exact absurd hmem List.not_mem_nil
  | cons first rs ih =>
    by_cases hfirst : first.op = 0b11
    · exact runRequests_cons_of_step_refused rs (step_of_op_reserved hfirst)
    · obtain ⟨a, ha⟩ := exists_respond_eq_some hfirst
      obtain ⟨t, hstep, -⟩ := step_present_of_respond ha s
      have hne : r ≠ first := fun heq => hfirst (heq ▸ hop)
      exact runRequests_cons_of_run_refused hstep (ih (List.mem_of_ne_of_mem hne hmem) t)

/-! ## A run without it -/

/-- Where no request has the reserved select, `respond` lists a response for each. -/
theorem exists_map_some_eq_map_respond {rs : List Request} (h : ∀ r ∈ rs, r.op ≠ 0b11) :
    ∃ out : List PortResponse, out.map some = rs.map respond := by
  have hall : ∀ x ∈ rs.map respond, x ∈ Set.range some := by
    intro x hx
    obtain ⟨r, hr, rfl⟩ := List.mem_map.mp hx
    obtain ⟨a, ha⟩ := exists_respond_eq_some (h r hr)
    exact ⟨a, ha.symm⟩
  rwa [← Set.mem_range, Set.range_list_map]

/-- Settles O46: the responses of the requests are what the run collects, and a reserved select among them ends it. -/
theorem runIsTheListOfItsResponses : Obligations.RunIsTheListOfItsResponses := by
  refine fun rs s => ⟨fun hnone => ?answered, fun ⟨r, hmem, hop⟩ => runRequests_refused_of_mem hop hmem s⟩
  obtain ⟨out, hout⟩ := exists_map_some_eq_map_respond hnone
  obtain ⟨u, hrun⟩ := runRequests_of_respond hout.symm s
  exact ⟨u, out, hrun, hout⟩

/-! ## Reset -/

/-- Settles O44: reset drives what an operation with the word 0, a byte, would drive. -/
theorem resetOutputsAreLegal : Obligations.ResetOutputsAreLegal :=
  legalOutputs_driveWord State.reset (.inl (Nat.zero_lt_succ 255))

end Sys2Proof.Machine
end

section
/-! Words of the opcode table written out (30_encoding.md R44, R51; log entries 2 and 6). -/

namespace Sys2Proof

/-- The table's bits read as a well-formed instruction once they are, at the length they are read at, the bits that the
encoder writes for it. -/
theorem decodeTableWord_of_encodeInstr {nbits w : Nat} {i : Instr} (hwf : wellFormed i = true)
    (hbits : encodeInstr i = ⟨tableLength nbits, w⟩) : decodeTableWord nbits w = some i := by
  have hdecode := decodeOfEncodedInstruction i hwf
  rw [hbits] at hdecode
  exact (decodeTableWord_eq_some_iff nbits w i).mpr hdecode

/-- Settles O56: each instruction named is well formed, and its bits are the word written out. -/
theorem sampleWordsDecode : Obligations.SampleWordsDecode := by
  refine ⟨?encode, ?reserved, ?modeCool, ?fahrenheit, ?unlisted⟩
  all_goals exact decodeTableWord_of_encodeInstr (by decide) (by decide)

end Sys2Proof
end
